-- ==== Sys2Proof/Word.lean ====
section
/-! DEFINITION. The widths of the block's values: bytes, five-bit switches, the codec's 64-bit accumulator, and the fixed-length buffers made of them (10_state.md R20, R26; 30_encoding.md R62, R70; 40_codec.md R94). -/

namespace Sys2Proof

/-- One byte of the frame, of the transmit queue or of a command line (R8: every value is unsigned). -/
abbrev Byte := BitVec 8

/-- One switch: bit 4 is A, bit 3 is B, bit 2 is C, bit 1 is D and bit 0 is E (R20, R21). -/
abbrev Switch := BitVec 5

/-- The Switch Matrix `SW[0]` to `SW[31]` (R20). -/
abbrev SwitchMatrix := Vector Switch 32

/-- The codec's output buffer `FRAME[0]` to `FRAME[19]` (R26). -/
abbrev Frame := Vector Byte 20

/-- A group's accumulator (R94). -/
abbrev Accumulator := BitVec 64

/-- The frame read as one 160-bit number (R41). -/
abbrev FrameWord := BitVec 160

/-- A token of a command line (R71). -/
abbrev Token := List Byte

/-- A command line, its terminator already removed (R70). -/
abbrev Line := List Byte

end Sys2Proof
end

