-- ==== Sys2Proof/Config.lean ====
section
/-! DEFINITION. The parameters the source settles (00_scope.md R6), the parameters it leaves open (R7), the agents that take steps (R3), and the free values. -/

namespace Sys2Proof

/-! Settled parameters (R6). The counts 32, 5, 20, 64 stand in the types of `Word.lean`. -/

/-- `GROUP_STRIDE` (R6): bytes between the merge windows of consecutive groups. -/
abbrev Config.groupStride : Nat := 5

/-- `MERGE_BYTES` (R6): accumulator bytes merged into the frame per group. -/
abbrev Config.mergeBytes : Nat := 6

/-- `FRAME_BYTES` (R6). -/
abbrev Config.frameBytes : Nat := 20

/-- `LOW_WATER` (R6): the queue depth below which FILL pushes idle bytes. -/
abbrev Config.lowWater : Nat := 4

/-- `IDLE_BYTE` (R6). -/
abbrev Config.idleByte : Byte := 0x00

/-- `MAX_TOKENS` (R6): the most tokens a line may have, token 0 included. -/
abbrev Config.maxTokens : Nat := 12

/-- The two values of the open parameter `WIRE_BIT_ORDER` (R7, R45). -/
inductive WireBitOrder
  | msbFirst
  | lsbFirst
deriving DecidableEq, Repr, Inhabited

/-- What one implementation of the block fixes and the source does not (R7, R26).
A model takes each as an argument; here every state carries its block's `Config`, and no step writes it. -/
structure Config where
  /-- `SW_RESET`, by default "all closed / value 0x00" (R7). -/
  swReset : Switch := 0
  /-- `TXQ_CAP` less 20: R7 asks `TXQ_CAP >= 20`, so the room beyond one frame is the open number. -/
  txqSpare : Nat
  /-- `WIRE_BIT_ORDER` (R7). -/
  wireBitOrder : WireBitOrder
  /-- The content of `FRAME` after reset, which the spec leaves at any value (R26; 93_implementation_defined.md I2). -/
  frameReset : Frame
deriving DecidableEq, Repr, Inhabited

/-- `TXQ_CAP`, the transmit queue's capacity (R7): at least `FRAME_BYTES` whatever the configuration. -/
def Config.txqCap (c : Config) : Nat := c.txqSpare + Config.frameBytes

/-- The configuration of the machine this model is of. FREE: nothing fixes its fields (R7, assumption 4). -/
opaque Config.machine : Config

/-- The four agents (R3): the command unit, the idle filler, the serializer, the completion handler. -/
inductive Agent
  | cu
  | fill
  | ser
  | ch
deriving DecidableEq, Repr, Inhabited

/-- Whose turn a step is: an agent's, or the host link's connection-reset event (R203). -/
inductive Turn
  | agent (a : Agent)
  | reconnect
deriving DecidableEq, Repr, Inhabited

/-- The turns taken once the schedule that a state lists is used up. FREE: R51 fixes no order between agents (assumption 2). -/
opaque Config.freeTurn : Nat → Turn

end Sys2Proof
end

