-- ==== Sys2Proof/Syntax.lean ====
section
/-! DEFINITION. The commands: the enumerated set of R62, the Parsed Command record of R62, and `Instr`, one constructor for each row of spec/opcode_table.json. -/

namespace Sys2Proof

/-- The values of the record's `cmd` field (30_encoding.md R62). -/
inductive Cmd
  | noop
  | clear
  | write
  | select
  | load
  | clock
  | stop
  | invalid
deriving DecidableEq, Repr

/-- What reaches the command unit: a Parsed Command `(cmd, argv)`, or the tokenizer failure (R62). -/
inductive Record
  | parsed (cmd : Cmd) (argv : List Token)
  | overlong
deriving DecidableEq, Repr

/-- The instructions. `argv` leaves token 0 out (R62), so `argc` is its length. -/
inductive Instr
  /-- NOOP (41_commands.md R120). -/
  | noop (argv : List Token)
  /-- CLEAR (R121). -/
  | clear (argv : List Token)
  /-- WRITE, declared and not implemented by the block (R122). -/
  | write (argv : List Token)
  /-- SELECT (R123). -/
  | select (argv : List Token)
  /-- LOAD (R124). -/
  | load (argv : List Token)
  /-- CLOCK (R126). -/
  | clock (argv : List Token)
  /-- STOP (R127). -/
  | stop (argv : List Token)
  /-- INVALID: token 0 names no command, or the line is empty (R128). -/
  | invalid (argv : List Token)
  /-- Overlong: the line has more than `MAX_TOKENS` tokens; it carries no command and no operands (R129). -/
  | overlong
deriving DecidableEq, Repr

end Sys2Proof
end

