-- ==== Sys2Proof/Decode.lean ====
section
/-! DEFINITION. The two encodings of a command (30_encoding.md sections 2 to 5), the text line and the Parsed Command record; the decoder, total on any bytes (R67); and after it the encoder. -/

namespace Sys2Proof

/-! ## Tokenizer (R71, R72) -/

/-- The whitespace bytes: space, tab, line feed, vertical tab, form feed, carriage return (R72). -/
def isSpace (b : Byte) : Bool :=
  b == 0x20 || b == 0x09 || b == 0x0A || b == 0x0B || b == 0x0C || b == 0x0D

/-- Ends the token read so far, if there is one. -/
def flushToken (cur : Token) (rest : List Token) : List Token :=
  match cur with
  | [] => rest
  | _ :: _ => cur :: rest

/-- Splits on runs of whitespace; `cur` is the part of the current token already read. -/
def tokenizeFrom (cur : Token) : Line → List Token
  | [] => flushToken cur []
  | b :: bs =>
    if isSpace b then flushToken cur (tokenizeFrom [] bs)
    else tokenizeFrom (cur ++ [b]) bs

/-- The tokens of a line, in line order (R71). -/
def tokenize (line : Line) : List Token := tokenizeFrom [] line

/-! ## Token 0 (R64) -/

/-- Maps ASCII `a`..`z` to `A`..`Z` and no other byte (R64). -/
def foldCase (b : Byte) : Byte :=
  if 0x61 ≤ b ∧ b ≤ 0x7A then b - 0x20 else b

/-- The command table: each name's ASCII bytes and its command (R64). INVALID is not in it. -/
def commandTable : List (Token × Cmd) :=
  [([0x4E, 0x4F, 0x4F, 0x50], .noop),
   ([0x43, 0x4C, 0x45, 0x41, 0x52], .clear),
   ([0x57, 0x52, 0x49, 0x54, 0x45], .write),
   ([0x53, 0x45, 0x4C, 0x45, 0x43, 0x54], .select),
   ([0x4C, 0x4F, 0x41, 0x44], .load),
   ([0x43, 0x4C, 0x4F, 0x43, 0x4B], .clock),
   ([0x53, 0x54, 0x4F, 0x50], .stop)]

/-- The command a token 0 names: a whole-token match after case folding, INVALID where no name matches (R64). -/
def cmdOfToken (t : Token) : Cmd :=
  ((commandTable.find? fun row => row.1 == t.map foldCase).map Prod.snd).getD .invalid

/-! ## The record (R62, R63) -/

/-- The 3-bit code of a command (R63). -/
def Cmd.code : Cmd → BitVec 3
  | .noop => 0
  | .clear => 1
  | .write => 2
  | .select => 3
  | .load => 4
  | .clock => 5
  | .stop => 6
  | .invalid => 7

/-- The command a 3-bit code stands for: all eight codes are used (R63). -/
def Cmd.ofCode (c : BitVec 3) : Cmd :=
  if c = 0 then .noop
  else if c = 1 then .clear
  else if c = 2 then .write
  else if c = 3 then .select
  else if c = 4 then .load
  else if c = 5 then .clock
  else if c = 6 then .stop
  else .invalid

/-- The record of a line's tokens: the count is checked before token 0 is matched, and no tokens give INVALID (R64, R73). -/
def recordOfTokens (ts : List Token) : Record :=
  if Config.maxTokens < ts.length then .overlong
  else match ts with
    | [] => .parsed .invalid []
    | t :: argv => .parsed (cmdOfToken t) argv

/-- The instruction a record stands for (R62). -/
def decodeRecord : Record → Instr
  | .parsed .noop argv => .noop argv
  | .parsed .clear argv => .clear argv
  | .parsed .write argv => .write argv
  | .parsed .select argv => .select argv
  | .parsed .load argv => .load argv
  | .parsed .clock argv => .clock argv
  | .parsed .stop argv => .stop argv
  | .parsed .invalid argv => .invalid argv
  | .overlong => .overlong

/-! ## The decoder -/

/-- The one outcome of a command line (R67): total, and no line is rejected. -/
def decode (line : Line) : Instr := decodeRecord (recordOfTokens (tokenize line))

/-- The instruction of a record word as spec/opcode_table.json numbers it: `cmd` is bits 2..0 (the table's mask 7), and the
operands, to which the table gives no bits, are none. The one row to which it gives no bits at all is Overlong. -/
def decodeTableWord (nbits w : Nat) : Option Instr :=
  if nbits = 0 then some (decodeRecord .overlong)
  else some (decodeRecord (.parsed (Cmd.ofCode (BitVec.ofNat 3 w)) []))

/-! ## The encoder -/

/-- The record of an instruction (R62). -/
def encodeRecord : Instr → Record
  | .noop argv => .parsed .noop argv
  | .clear argv => .parsed .clear argv
  | .write argv => .parsed .write argv
  | .select argv => .parsed .select argv
  | .load argv => .parsed .load argv
  | .clock argv => .parsed .clock argv
  | .stop argv => .parsed .stop argv
  | .invalid argv => .parsed .invalid argv
  | .overlong => .overlong

/-- The name a command is spelled with (R74). INVALID has no name of its own; the token "INVALID", which is in no table, spells it (R64). -/
def nameOfCmd : Cmd → Token
  | .noop => [0x4E, 0x4F, 0x4F, 0x50]
  | .clear => [0x43, 0x4C, 0x45, 0x41, 0x52]
  | .write => [0x57, 0x52, 0x49, 0x54, 0x45]
  | .select => [0x53, 0x45, 0x4C, 0x45, 0x43, 0x54]
  | .load => [0x4C, 0x4F, 0x41, 0x44]
  | .clock => [0x43, 0x4C, 0x4F, 0x43, 0x4B]
  | .stop => [0x53, 0x54, 0x4F, 0x50]
  | .invalid => [0x49, 0x4E, 0x56, 0x41, 0x4C, 0x49, 0x44]

/-- Tokens written with one space before each. -/
def spellArgs : List Token → Line
  | [] => []
  | t :: ts => 0x20 :: (t ++ spellArgs ts)

/-- The line that spells a record: its name and then its operands (R74); for Overlong, thirteen tokens `X` (R73, assumption 8). -/
def spellRecord : Record → Line
  | .parsed cmd argv => nameOfCmd cmd ++ spellArgs argv
  | .overlong => 0x58 :: spellArgs (List.replicate Config.maxTokens [0x58])

/-- A line that spells an instruction. -/
def encode (i : Instr) : Line := spellRecord (encodeRecord i)

/-- A line that spells the instruction of a record word. -/
def lineOfTableWord (nbits w : Nat) : Line :=
  match decodeTableWord nbits w with
  | some i => encode i
  | none => []

end Sys2Proof
end

