-- ==== Sys2Proof/Machine/Codec.lean ====
section
/-! DEFINITION. PACK, the frame codec (40_codec.md R90 to R99), in its normative form and in its closed form, and the layout table of 30_encoding.md R60. -/

namespace Sys2Proof.Machine

/-! ## The normative algorithm (R96) -/

/-- The per-group bit offset `S(i) = 1 - floor(i/2)` (R93). -/
def groupOffset (i : Fin 4) : Nat := 1 - i.val / 2

/-- The matrix index at position `j` of group `i` (R92). -/
def switchIndex (i : Fin 4) (j : Fin 8) : Fin 32 := ⟨32 - 8 * i.val - 1 - j.val, by omega⟩

/-- The accumulator of group `i` (R94). -/
def accumulator (m : SwitchMatrix) (i : Fin 4) : Accumulator :=
  (List.finRange 8).foldl
    (fun (acc : Accumulator) (j : Fin 8) => acc ||| ((m[switchIndex i j]).setWidth 64 <<< (5 * j.val + groupOffset i))) 0

/-- Byte `b` of an accumulator, byte 0 the least significant (20_memory.md R42). -/
def accByte (acc : Accumulator) (b : Nat) : Byte := acc.extractLsb' (8 * b) 8

/-- ORs a byte into `FRAME[k]`; an index past the frame's end is not written (20_memory.md R43). -/
def orFrameByte (f : Frame) (k : Nat) (b : Byte) : Frame :=
  if h : k < 20 then f.set k (f[k] ||| b) else f

/-- The merge of group `i` into the frame (R95). -/
def mergeGroup (m : SwitchMatrix) (f : Frame) (i : Fin 4) : Frame :=
  (List.range Config.mergeBytes).foldl
    (fun g b => orFrameByte g (Config.groupStride * i.val + b) (accByte (accumulator m i) b)) f

/-- PACK (R96). -/
def pack (m : SwitchMatrix) : Frame :=
  (List.finRange 4).foldl (mergeGroup m) (Vector.replicate 20 0)

/-! ## Frame bits, and the closed form (R41, R97) -/

/-- The frame as one 160-bit number, `FRAME[0]` its least significant byte (20_memory.md R41). -/
def frameWord (f : Frame) : FrameWord :=
  (List.finRange 20).foldl (fun (acc : FrameWord) (k : Fin 20) => acc ||| ((f[k]).setWidth 160 <<< (8 * k.val))) 0

/-- Frame bit `f` of the numbering of R41. -/
def frameBit (f : Frame) (p : Nat) : Bool := (f[p / 8]?.getD 0).getLsbD (p % 8)

/-- Where the E bit of switch `n` lands in the frame: `155 - 5*n + (1 if n >= 16 else 0)` (R97, R99). -/
def laneOffset (n : Fin 32) : Nat := 155 - 5 * n.val + (if 16 ≤ n.val then 1 else 0)

/-- The closed form of PACK (R97). -/
def packWord (m : SwitchMatrix) : FrameWord :=
  (List.finRange 32).foldl (fun (acc : FrameWord) (n : Fin 32) => acc ||| ((m[n]).setWidth 160 <<< laneOffset n)) 0

/-! ## The layout table (R60), row by row as the spec prints it -/

/-- The names of a switch's bits (R21). -/
inductive SwitchBit
  | A
  | B
  | C
  | D
  | E
deriving DecidableEq, Repr

/-- The place of a switch's bit (R21). -/
def SwitchBit.pos : SwitchBit → Nat
  | .A => 4
  | .B => 3
  | .C => 2
  | .D => 1
  | .E => 0

/-- An entry of the table: the switch bits that land on one frame bit. -/
abbrev LayoutEntry := List (Fin 32 × SwitchBit)

/-- Bytes 0 to 9 of the table, each row from bit 7 down to bit 0 (R60). -/
def layoutLow : List (List LayoutEntry) :=
  [[[(30, .D)], [(30, .E)], [(31, .A)], [(31, .B)], [(31, .C)], [(31, .D)], [(31, .E)], []],
   [[(29, .A)], [(29, .B)], [(29, .C)], [(29, .D)], [(29, .E)], [(30, .A)], [(30, .B)], [(30, .C)]],
   [[(27, .C)], [(27, .D)], [(27, .E)], [(28, .A)], [(28, .B)], [(28, .C)], [(28, .D)], [(28, .E)]],
   [[(25, .E)], [(26, .A)], [(26, .B)], [(26, .C)], [(26, .D)], [(26, .E)], [(27, .A)], [(27, .B)]],
   [[(24, .B)], [(24, .C)], [(24, .D)], [(24, .E)], [(25, .A)], [(25, .B)], [(25, .C)], [(25, .D)]],
   [[(22, .D)], [(22, .E)], [(23, .A)], [(23, .B)], [(23, .C)], [(23, .D)], [(23, .E)], [(24, .A)]],
   [[(21, .A)], [(21, .B)], [(21, .C)], [(21, .D)], [(21, .E)], [(22, .A)], [(22, .B)], [(22, .C)]],
   [[(19, .C)], [(19, .D)], [(19, .E)], [(20, .A)], [(20, .B)], [(20, .C)], [(20, .D)], [(20, .E)]],
   [[(17, .E)], [(18, .A)], [(18, .B)], [(18, .C)], [(18, .D)], [(18, .E)], [(19, .A)], [(19, .B)]],
   [[(16, .B)], [(16, .C)], [(16, .D)], [(16, .E)], [(17, .A)], [(17, .B)], [(17, .C)], [(17, .D)]]]

/-- Bytes 10 to 19 of the table. -/
def layoutHigh : List (List LayoutEntry) :=
  [[[(14, .C)], [(14, .D)], [(14, .E)], [(15, .A)], [(15, .B)], [(15, .C)], [(15, .D)], [(15, .E), (16, .A)]],
   [[(12, .E)], [(13, .A)], [(13, .B)], [(13, .C)], [(13, .D)], [(13, .E)], [(14, .A)], [(14, .B)]],
   [[(11, .B)], [(11, .C)], [(11, .D)], [(11, .E)], [(12, .A)], [(12, .B)], [(12, .C)], [(12, .D)]],
   [[(9, .D)], [(9, .E)], [(10, .A)], [(10, .B)], [(10, .C)], [(10, .D)], [(10, .E)], [(11, .A)]],
   [[(8, .A)], [(8, .B)], [(8, .C)], [(8, .D)], [(8, .E)], [(9, .A)], [(9, .B)], [(9, .C)]],
   [[(6, .C)], [(6, .D)], [(6, .E)], [(7, .A)], [(7, .B)], [(7, .C)], [(7, .D)], [(7, .E)]],
   [[(4, .E)], [(5, .A)], [(5, .B)], [(5, .C)], [(5, .D)], [(5, .E)], [(6, .A)], [(6, .B)]],
   [[(3, .B)], [(3, .C)], [(3, .D)], [(3, .E)], [(4, .A)], [(4, .B)], [(4, .C)], [(4, .D)]],
   [[(1, .D)], [(1, .E)], [(2, .A)], [(2, .B)], [(2, .C)], [(2, .D)], [(2, .E)], [(3, .A)]],
   [[(0, .A)], [(0, .B)], [(0, .C)], [(0, .D)], [(0, .E)], [(1, .A)], [(1, .B)], [(1, .C)]]]

/-- The layout table of R60. -/
def layoutTable : List (List LayoutEntry) := layoutLow ++ layoutHigh

/-- The entry of byte `k`, bit `b`: column 0 is bit 7 (R60). -/
def layoutEntry (k b : Nat) : LayoutEntry := ((layoutTable[k]?.getD [])[7 - b]?).getD []

/-- What an entry says of a matrix: the OR of the switch bits it names, 0 where it names none (R60). -/
def layoutValue (m : SwitchMatrix) (e : LayoutEntry) : Bool :=
  e.any fun p => (m[p.1]).getLsbD p.2.pos

end Sys2Proof.Machine
end

