-- ==== Sys2Proof/Machine/State.lean ====
section
/-! DEFINITION. What the machine holds (10_state.md R20 to R32), the ways a step can stop, and the state after reset. -/

namespace Sys2Proof.Machine

/-- An event of the observation trace (10_state.md R28). -/
inductive Event
  /-- A byte has been shifted out on the serial bus (42_serializer.md R150). -/
  | wireByte (b : Byte)
  /-- One whole pulse of the strobe line (R154). -/
  | strobe
deriving DecidableEq, Repr

/-- The status a command step returns to the host (60_exceptions.md R180). -/
inductive Status
  | ok
  | invalidCommand
  | tooManyArgs
  | argCountError
  | argFormatError
  | clockActiveError
  | notImplemented
deriving DecidableEq, Repr

/-- Why the machine stops. -/
inductive Fault
  /-- START_FRAME (in CLEAR and SELECT) finds no room for 20 bytes in the transmit queue (R110, R192). Safe: the source gives
  the transport no capacity and no full behaviour. -/
  | txQueueOverflow
deriving DecidableEq, Repr

/-- Why an instruction has no meaning here. -/
inductive Refusal
  /-- An instruction rejected by name. No arm raises it: every instruction has its meaning. Safe. -/
  | notModelled (mnemonic : String)
deriving DecidableEq, Repr

/-- The block's state (R20 to R32), its outputs (R28, R180), and beside them the environment it meets. -/
structure State where
  /-- The open parameters of this block (R7); no step writes them. -/
  cfg : Config
  /-- The Switch Matrix `SW[0..31]` (R20). -/
  sw : SwitchMatrix
  /-- `CLK_EN`, the Clock-Output Flag (R23). -/
  clkEn : Bool
  /-- `PEND`, the Pending-Pulse Flag (R24). -/
  pend : Bool
  /-- `DONE`, the completion signal (R25). -/
  done : Bool
  /-- `FRAME[0..19]`, the codec's output buffer (R26). -/
  frame : Frame
  /-- `TXQ`, the transmit queue, its head first (R27). -/
  txq : List Byte
  /-- The trace of events, oldest first (R28). -/
  trace : List Event
  /-- The statuses returned to the host, oldest first (R112, R180): an output, read by no step. -/
  statuses : List Status
  /-- The command lines the host presents and the command unit has not taken, oldest first (R29, R52, R55). -/
  input : List Line
  /-- The turns to come, next first (R51, assumption 2). -/
  sched : List Turn
  /-- How many free turns have been taken (assumption 2). -/
  tick : Nat
deriving DecidableEq, Repr

/-- The state after reset of a block with the given open parameters (R32, R200). -/
def State.resetWith (c : Config) : State where
  cfg := c
  sw := Vector.replicate 32 c.swReset
  clkEn := false
  pend := false
  done := false
  frame := c.frameReset
  txq := []
  trace := []
  statuses := []
  input := []
  sched := []
  tick := 0

/-- The machine right after reset (R200). -/
def State.reset : State := State.resetWith Config.machine

end Sys2Proof.Machine
end

