-- ==== Sys2Proof/Machine/Ops.lean ====
section
/-! DEFINITION. The named operations on the state: the accesses of 10_state.md R20 to R30, the status return of 60_exceptions.md R182, and START_FRAME, the procedure CLEAR and SELECT share (41_commands.md R110). -/

namespace Sys2Proof.Machine

/-- The outcome of a step of this machine. -/
abbrev Result := Host.Outcome State Fault Refusal

/-- The numeric code of a status (60_exceptions.md R180). -/
def Status.code : Status → Nat
  | .ok => 0
  | .invalidCommand => 1
  | .tooManyArgs => 2
  | .argCountError => 3
  | .argFormatError => 4
  | .clockActiveError => 5
  | .notImplemented => 6

/-- Returns a status to the host (R112). No mode, mask or vector exists, and nothing is saved (R182). -/
def State.reply (s : State) (st : Status) : State := { s with statuses := s.statuses ++ [st] }

/-- Writes one value into all 32 switches (R20, R47). -/
def State.writeAllSwitches (s : State) (v : Switch) : State := { s with sw := Vector.replicate 32 v }

/-- Writes `FRAME` (R26). -/
def State.setFrame (s : State) (f : Frame) : State := { s with frame := f }

/-- Appends bytes at the queue's tail, the first of them nearest the head (R27, R47). -/
def State.pushBytes (s : State) (bs : List Byte) : State := { s with txq := s.txq ++ bs }

/-- What remains of the queue when bytes have left it (R27). -/
def State.setTxq (s : State) (q : List Byte) : State := { s with txq := q }

/-- The transport's "clear queue": every queued byte is discarded (R27, R127; 90_conflicts.md C2). -/
def State.clearTxq (s : State) : State := s.setTxq []

/-- Appends an event to the trace (R9, R28). -/
def State.emit (s : State) (e : Event) : State := { s with trace := s.trace ++ [e] }

/-- What remains of the host's command lines (R29). -/
def State.setInput (s : State) (ls : List Line) : State := { s with input := ls }

/-- Writes `CLK_EN` (R23). -/
def State.setClkEn (s : State) (b : Bool) : State := { s with clkEn := b }

/-- Writes `PEND` (R24). -/
def State.setPend (s : State) (b : Bool) : State := { s with pend := b }

/-- Writes `DONE` (R25). -/
def State.setDone (s : State) (b : Bool) : State := { s with done := b }

/-- Ends a command step that got this far with the status OK. -/
def replyOk : Result → Result
  | .next t => .next (t.reply .ok)
  | .fault r => .fault r
  | .refused r => .refused r

/-- START_FRAME (R110): pack, check the room, arm the strobe, and push the frame, `FRAME[0]` first (20_memory.md R44). -/
def startFrame (s : State) : Result :=
  let packed := s.setFrame (pack s.sw)
  if packed.txq.length + Config.frameBytes > packed.cfg.txqCap then .fault .txQueueOverflow
  else .next ((packed.setPend true).pushBytes packed.frame.toList)

end Sys2Proof.Machine
end

