-- ==== Sys2Proof/Machine/Agents.lean ====
section
/-! DEFINITION. The steps of the agents that act on their own: the serializer, the completion handler and the idle filler (42_serializer.md R150 to R153), and the bits they put on the bus (R151). -/

namespace Sys2Proof.Machine

/-- The SER step on a queue with head `b` (R150): shift the byte out, and signal completion when it was the last. -/
def shiftOut (b : Byte) (rest : List Byte) (s : State) : State :=
  let shifted := (s.setTxq rest).emit (.wireByte b)
  if rest.isEmpty then shifted.setDone true else shifted

/-- SER's turn; with an empty queue SER is not enabled and the turn changes nothing (R150). -/
def serStep (s : State) : State :=
  match s.txq with
  | [] => s
  | b :: rest => shiftOut b rest s

/-- The CH step (R152): the block's only interrupt handler (60_exceptions.md R184), which saves nothing. -/
def handleCompletion (s : State) : State :=
  let taken := s.setDone false
  if taken.pend then (taken.setPend false).emit .strobe else taken

/-- CH's turn; with no completion outstanding it changes nothing (R152). -/
def chStep (s : State) : State := if s.done then handleCompletion s else s

/-- FILL is enabled while `CLK_EN = 1` and the queue is below the low-water mark (R153). -/
def fillEnabled (s : State) : Bool := s.clkEn && decide (s.txq.length < Config.lowWater)

/-- FILL's turn: one idle byte, or nothing where it is not enabled (R153). -/
def fillStep (s : State) : State := if fillEnabled s then s.pushBytes [Config.idleByte] else s

/-- Which agents may take a step (R150, R152, R153); CU needs a command from the host (R29). -/
def enabled (a : Agent) (s : State) : Bool :=
  match a with
  | .cu => !s.input.isEmpty
  | .fill => fillEnabled s
  | .ser => !s.txq.isEmpty
  | .ch => s.done

/-! ## The serial bus (R151) -/

/-- The bits of one byte in the order they appear on the bus (R45, R151). -/
def wireBits (o : WireBitOrder) (b : Byte) : List Bool :=
  let lsbFirst := (List.range 8).map b.getLsbD
  match o with
  | .lsbFirst => lsbFirst
  | .msbFirst => lsbFirst.reverse

/-- The bytes of a trace that were shifted out, in order. -/
def wireBytes : List Event → List Byte
  | [] => []
  | .wireByte b :: es => b :: wireBytes es
  | .strobe :: es => wireBytes es

/-- How often the strobe line was pulsed in a trace. -/
def strobes : List Event → Nat
  | [] => 0
  | .wireByte _ :: es => strobes es
  | .strobe :: es => strobes es + 1

/-- The bit stream of the block's one bus output (R151). -/
def busBits (s : State) : List Bool := (wireBytes s.trace).flatMap (wireBits s.cfg.wireBitOrder)

end Sys2Proof.Machine
end

