-- ==== Sys2Proof/Machine/Flags.lean ====
section
/-! DEFINITION. The gate that the Clock-Output Flag puts before a command (41_commands.md R113). The flags themselves are written through `State.setClkEn`, `State.setPend` and `State.setDone` of Ops.lean. -/

namespace Sys2Proof.Machine

/-- The precondition "clock flag off": ClockActiveError and nothing else while `CLK_EN = 1` (R113). -/
def clockGate (s : State) (run : State → Result) : Result :=
  if s.clkEn then .next (s.reply .clockActiveError) else run s

end Sys2Proof.Machine
end

