-- ==== Sys2Proof/Machine/ControlCommands.lean ====
section
/-! DEFINITION. NOOP, LOAD, CLOCK and STOP (41_commands.md R120, R124, R126, R127); each ignores its operands (R111). -/

namespace Sys2Proof.Machine

/-- NOOP (R120). -/
def execNoop (_argv : List Token) (s : State) : Result := .next (s.reply .ok)

/-- LOAD (R124): the strobe fires in this step, not through `PEND`. -/
def execLoad (_argv : List Token) (s : State) : Result :=
  clockGate s fun s => .next ((s.emit .strobe).reply .ok)

/-- CLOCK (R126). -/
def execClock (_argv : List Token) (s : State) : Result := .next ((s.setClkEn true).reply .ok)

/-- STOP (R127): it clears the flag and discards the queue; `PEND` and `DONE` stay as they are (R155). -/
def execStop (_argv : List Token) (s : State) : Result := .next (((s.setClkEn false).clearTxq).reply .ok)

end Sys2Proof.Machine
end

