-- ==== Sys2Proof/Machine/Operands.lean ====
section
/-! DEFINITION. The SELECT operand and its checks (41_commands.md R123), and MASK (40_codec.md R100). No other command reads an operand (R111, R122). -/

namespace Sys2Proof.Machine

/-- MASK (R100): the switch value of a letter, either case; 0 for every other byte. -/
def mask (c : Byte) : Switch :=
  if c = 0x41 ∨ c = 0x61 then 16
  else if c = 0x42 ∨ c = 0x62 then 8
  else if c = 0x43 ∨ c = 0x63 then 4
  else if c = 0x44 ∨ c = 0x64 then 2
  else if c = 0x45 ∨ c = 0x65 then 1
  else 0

/-- What the checks of SELECT's operands come to. -/
inductive SelectOperand
  | byte (c : Byte)
  | rejected (st : Status)
deriving DecidableEq, Repr

/-- The operand checks of SELECT, in the order of R123: the count first, then the length of the one operand. -/
def selectOperand (argv : List Token) : SelectOperand :=
  match argv with
  | [[c]] => .byte c
  | [_] => .rejected .argFormatError
  | _ => .rejected .argCountError

end Sys2Proof.Machine
end

