-- ==== Sys2Proof/Machine/FrameCommands.lean ====
section
/-! DEFINITION. CLEAR and SELECT: the commands that write the matrix and start a frame (41_commands.md R121, R123). -/

namespace Sys2Proof.Machine

/-- Writes every switch and starts the frame: the common part of CLEAR and SELECT (R110). -/
def writeAndTransmit (v : Switch) (s : State) : Result := replyOk (startFrame (s.writeAllSwitches v))

/-- CLEAR (R121); its operands are ignored (R111). -/
def execClear (_argv : List Token) (s : State) : Result := clockGate s (writeAndTransmit 0)

/-- SELECT (R123): the operand checks, then the clock gate. -/
def execSelect (argv : List Token) (s : State) : Result :=
  match selectOperand argv with
  | .rejected st => .next (s.reply st)
  | .byte c => clockGate s (writeAndTransmit (mask c))

end Sys2Proof.Machine
end

