-- ==== Sys2Proof/Machine/StatusCommands.lean ====
section
/-! DEFINITION. The outcomes that only return a status: WRITE, INVALID and Overlong (41_commands.md R122, R128, R129). -/

namespace Sys2Proof.Machine

/-- WRITE (R122): NotImplemented, whatever its operands and the clock flag. -/
def execWrite (_argv : List Token) (s : State) : Result := .next (s.reply .notImplemented)

/-- INVALID (R128). -/
def execInvalid (_argv : List Token) (s : State) : Result := .next (s.reply .invalidCommand)

/-- Overlong (R129): the command that token 0 names is not executed. -/
def execOverlong (s : State) : Result := .next (s.reply .tooManyArgs)

end Sys2Proof.Machine
end

