-- ==== Sys2Proof/Machine/Dispatch.lean ====
section
/-! DEFINITION. The meaning of an instruction: one arm for each constructor of `Instr`. -/

namespace Sys2Proof.Machine

def exec (i : Instr) (s : State) : Host.Outcome State Fault Refusal :=
  match i with
  | .noop argv => Sys2Proof.Machine.execNoop argv s
  | .clear argv => Sys2Proof.Machine.execClear argv s
  | .write argv => Sys2Proof.Machine.execWrite argv s
  | .select argv => Sys2Proof.Machine.execSelect argv s
  | .load argv => Sys2Proof.Machine.execLoad argv s
  | .clock argv => Sys2Proof.Machine.execClock argv s
  | .stop argv => Sys2Proof.Machine.execStop argv s
  | .invalid argv => Sys2Proof.Machine.execInvalid argv s
  | .overlong => Sys2Proof.Machine.execOverlong s

end Sys2Proof.Machine
end

