-- ==== Sys2Proof/Machine/Scheduler.lean ====
section
/-! DEFINITION. The command unit's step (00_scope.md R3, 10_state.md R29) and the interleaving of the agents (20_memory.md R51). -/

namespace Sys2Proof.Machine

/-- CU's turn: it takes the host's next line, decodes it and executes it; with no line it waits (R29, R201). -/
def cuStep (s : State) : Result :=
  match s.input with
  | [] => .next s
  | line :: rest => exec (decode line) (s.setInput rest)

/-- The host link's connection-reset event: it keeps every piece of block state (70_reset_and_hazards.md R203). -/
def hostReconnect (s : State) : State := s

/-- Whose turn is next: the schedule's, or a free choice once it is used up (R51). -/
def nextTurn (s : State) : Turn := (s.sched.head?).getD (Config.freeTurn s.tick)

/-- The state with that choice made: the turn is gone from the schedule, or the free choice is counted. -/
def consumeTurn (s : State) : State :=
  match s.sched with
  | [] => { s with tick := s.tick + 1 }
  | _ :: rest => { s with sched := rest }

/-- One turn (R3, R203). -/
def takeTurn (t : Turn) (s : State) : Result :=
  match t with
  | .agent .cu => cuStep s
  | .agent .fill => .next (fillStep s)
  | .agent .ser => .next (serStep s)
  | .agent .ch => .next (chStep s)
  | .reconnect => .next (hostReconnect s)

/-- The host presents a line, and the command unit has the next turn. -/
def presentLine (s : State) (line : Line) : State :=
  { s with input := line :: s.input, sched := .agent .cu :: s.sched }

end Sys2Proof.Machine
end

