-- ==== Sys2Proof/Machine/Step.lean ====
section
/-! DEFINITION. One step of the machine: the next turn is chosen and taken (20_memory.md R51). -/

namespace Sys2Proof.Machine

def step (s : State) : Host.Outcome State Fault Refusal := takeTurn (nextTurn s) (consumeTurn s)

/-- The state whose next step runs the instruction of a record word: the host has presented its line, and it is CU's turn. -/
def State.withFetchWord (s : State) (nbits w : Nat) : State := presentLine s (lineOfTableWord nbits w)

end Sys2Proof.Machine
end

