-- ==== Sys2Proof/WellFormed.lean ====
section
/-! DEFINITION. Which instructions a command line can spell: what a token is, and how many a line may have (30_encoding.md R71, R73). -/

namespace Sys2Proof

/-- A token is a non-empty run of non-whitespace bytes (R71). -/
def tokenWf (t : Token) : Bool :=
  !t.isEmpty && t.all fun b => !isSpace b

/-- Operands beside token 0: each a token, and with token 0 at most `MAX_TOKENS` of them (R71, R73). -/
def argvWf (argv : List Token) : Bool :=
  argv.all tokenWf && decide (argv.length + 1 ≤ Config.maxTokens)

/-- The operands an instruction carries (R62); Overlong carries none (R129). -/
def Instr.argv : Instr → List Token
  | .noop argv => argv
  | .clear argv => argv
  | .write argv => argv
  | .select argv => argv
  | .load argv => argv
  | .clock argv => argv
  | .stop argv => argv
  | .invalid argv => argv
  | .overlong => []

/-- An instruction that some command line decodes to. -/
def WellFormed (i : Instr) : Bool := argvWf i.argv

end Sys2Proof
end

