-- ==== Sys2Proof/Safety.lean ====
section
/-! DEFINITION. The terms in which claims speak of runs: quiescence (42_serializer.md R157), runs, and weak fairness (R156). -/

namespace Sys2Proof.Machine

/-- The four conditions of a quiescent run end (R157). -/
def Quiescent (s : State) : Prop :=
  s.input = [] ∧ s.txq = [] ∧ s.done = false ∧ s.clkEn = false

/-- The uniform matrix that every reachable state holds (R22). -/
def UniformMatrix (s : State) : Prop := ∀ n : Fin 32, s.sw[n] = s.sw[(0 : Fin 32)]

/-- The transmit queue is within its capacity (R27). -/
def QueueWithinCapacity (s : State) : Prop := s.txq.length ≤ s.cfg.txqCap

/-- An armed strobe has something that will complete: queued bytes, or a completion already raised (R157). -/
def ArmedStrobeHasCompletion (s : State) : Prop := s.pend = true → s.txq ≠ [] ∨ s.done = true

/-- The invariant of every step: the queue is within its capacity and the matrix is uniform (R22, R27). -/
def MachineInv (s : State) : Prop := QueueWithinCapacity s ∧ UniformMatrix s

/-- The value a frame-starting command writes into every switch: CLEAR's 0 and SELECT's mask; none for every other instruction
and for a SELECT whose operands are rejected (41_commands.md R121, R123). -/
def frameCommandValue : Instr → Option Switch
  | .clear _ => some 0
  | .select [[c]] => some (mask c)
  | _ => none

/-- The events of shifting out a list of bytes (R150). -/
def shiftedOut (bs : List Byte) : List Event := bs.map Event.wireByte

/-- `n` turns of the serializer. -/
def serTurns (n : Nat) : List Turn := List.replicate n (.agent .ser)

/-- The frame of a uniform matrix, as the bytes pushed into the queue (40_codec.md R101). -/
def uniformFrame (v : Switch) : List Byte := (pack (Vector.replicate 32 v)).toList

/-- The instruction this step executes, if it is CU's turn and the host has presented a line. -/
def executing (s : State) : Option Instr :=
  if nextTurn s = .agent .cu then (s.input.head?).map decode else none

/-- `k` steps, stopping at the first fault or refusal: the host's `Core.run` of this machine, in this machine's own types. After a
fault no later step runs (60_exceptions.md R192). -/
def runSteps : Nat → State → Result
  | 0, s => .next s
  | k + 1, s =>
    match step s with
    | .next t => runSteps k t
    | .fault r => .fault r
    | .refused r => .refused r

/-- An infinite run: every step answers the next state. -/
def IsRun (r : Nat → State) : Prop := ∀ k, step (r k) = .next (r (k + 1))

/-- Weak fairness of an agent in a run: if it stays enabled it eventually has a turn (R156). For SER this is the premise that the
transport does not wedge. -/
def WeaklyFair (a : Agent) (r : Nat → State) : Prop :=
  ∀ k, (∀ j, k ≤ j → enabled a (r j) = true) → ∃ j, k ≤ j ∧ nextTurn (r j) = .agent a

end Sys2Proof.Machine
end

