-- ==== Sys2Proof/Certificates/Slice0/Obligations.lean ====
section
/-! DEFINITION. The statements for the provers, each a claim about this model that a rule of spec/ makes or that follows from its rules. -/

open Sys2Proof Sys2Proof.Machine

/-! ## Commands -/

/-- 41_commands.md R120: the encoding, the pseudocode, that no flag is written, that the status is always OK with any operands and
with `CLK_EN` either way. The code 0 is the spec's decision D12 and that operands are ignored is its decision D15. -/
def Obligations.NoopOnlyReturnsOk : Prop :=
  Cmd.noop.code = 0 ∧ cmdOfToken [0x4E, 0x4F, 0x4F, 0x50] = .noop ∧
  (∀ argv, decodeRecord (.parsed .noop argv) = .noop argv) ∧
  ∀ (argv : List Token) (s : State), exec (.noop argv) s = .next { s with statuses := s.statuses ++ [.ok] }

/-- 41_commands.md R121 with R110, R113 and R192. START_FRAME's capacity check and its atomic push are the spec's decisions D9 and D4,
and that operands are ignored is its decision D15. -/
def Obligations.ClearResult : Prop :=
  ∀ (argv : List Token) (s : State),
    (s.clkEn = true →
      exec (.clear argv) s = .next { s with statuses := s.statuses ++ [.clockActiveError] }) ∧
    (s.clkEn = false → s.txq.length + 20 ≤ s.cfg.txqCap →
      exec (.clear argv) s = .next { s with
        sw := Vector.replicate 32 0, pend := true, frame := Vector.replicate 20 0,
        txq := s.txq ++ List.replicate 20 0x00, statuses := s.statuses ++ [.ok] }) ∧
    (s.clkEn = false → s.cfg.txqCap < s.txq.length + 20 →
      exec (.clear argv) s = .fault .txQueueOverflow)

/-- 41_commands.md R122. That no argument and no clock check comes first is the spec's decision D16. -/
def Obligations.WriteReturnsNotImplemented : Prop :=
  ∀ (argv : List Token) (s : State), exec (.write argv) s = .next { s with statuses := s.statuses ++ [.notImplemented] }

/-- 41_commands.md R123: the operand checks come first and in the spec's order (its decision D18), whatever `CLK_EN` is. -/
def Obligations.SelectRejectsOperands : Prop :=
  ∀ (argv : List Token) (s : State),
    (argv.length ≠ 1 →
      exec (.select argv) s = .next { s with statuses := s.statuses ++ [.argCountError] }) ∧
    (∀ t : Token, argv = [t] → t.length ≠ 1 →
      exec (.select argv) s = .next { s with statuses := s.statuses ++ [.argFormatError] })

/-- 41_commands.md R123 with R110, R113 and R192, for a one-byte operand. The frame pushed is PACK of the uniform matrix just written,
`FRAME[0]` first (the spec's decision D3); the capacity check and the atomic push are its decisions D9 and D4. -/
def Obligations.SelectResult : Prop :=
  ∀ (c : Byte) (s : State),
    (s.clkEn = true →
      exec (.select [[c]]) s = .next { s with statuses := s.statuses ++ [.clockActiveError] }) ∧
    (s.clkEn = false → s.txq.length + 20 ≤ s.cfg.txqCap →
      exec (.select [[c]]) s = .next { s with
        sw := Vector.replicate 32 (mask c), pend := true, frame := pack (Vector.replicate 32 (mask c)),
        txq := s.txq ++ (pack (Vector.replicate 32 (mask c))).toList, statuses := s.statuses ++ [.ok] }) ∧
    (s.clkEn = false → s.cfg.txqCap < s.txq.length + 20 →
      exec (.select [[c]]) s = .fault .txQueueOverflow)

/-- 41_commands.md R124. That the strobe fires in the LOAD step and not through `PEND` is the spec's decision D24, and that operands
are ignored is its decision D15. -/
def Obligations.LoadResult : Prop :=
  ∀ (argv : List Token) (s : State),
    (s.clkEn = true →
      exec (.load argv) s = .next { s with statuses := s.statuses ++ [.clockActiveError] }) ∧
    (s.clkEn = false →
      exec (.load argv) s = .next { s with trace := s.trace ++ [.strobe], statuses := s.statuses ++ [.ok] })

/-- 41_commands.md R126; with `CLK_EN` already 1 the same (the spec's decision D30), and operands are ignored (D15). -/
def Obligations.ClockResult : Prop :=
  ∀ (argv : List Token) (s : State), exec (.clock argv) s = .next { s with clkEn := true, statuses := s.statuses ++ [.ok] }

/-- 41_commands.md R127 and 42_serializer.md R155: every queued byte is discarded, `PEND` and `DONE` stay and no event is emitted
(the spec's decisions D8 and D30), and operands are ignored (D15). -/
def Obligations.StopResult : Prop :=
  ∀ (argv : List Token) (s : State), exec (.stop argv) s = .next { s with clkEn := false, txq := [], statuses := s.statuses ++ [.ok] }

/-- 41_commands.md R128: the code, that a token naming no command and an empty line give it, and its result in every state.
The code 7 is the spec's decision D12, the empty line its decision D19, and the matching after case folding its decision D21. -/
def Obligations.InvalidReturnsInvalidCommand : Prop :=
  Cmd.invalid.code = 7 ∧
  (∀ (line : Line) (t : Token) (argv : List Token), tokenize line = t :: argv → argv.length ≤ 11 →
    (∀ row ∈ commandTable, row.1 ≠ t.map foldCase) → decode line = .invalid argv) ∧
  (∀ line : Line, tokenize line = [] → decode line = .invalid []) ∧
  ∀ (argv : List Token) (s : State), exec (.invalid argv) s = .next { s with statuses := s.statuses ++ [.invalidCommand] }

/-- 41_commands.md R129: a line of more than 12 tokens gives it whatever its token 0 is, and the step only returns TooManyArgs.
That the count is checked before token 0 is matched is the spec's decision D19. -/
def Obligations.OverlongReturnsTooManyArgs : Prop :=
  (∀ line : Line, 12 < (tokenize line).length → decode line = .overlong) ∧
  ∀ s : State, exec .overlong s = .next { s with statuses := s.statuses ++ [.tooManyArgs] }

/-- 41_commands.md R112: a command step returns exactly one status, and with a status other than OK it changes nothing else and emits no event. -/
def Obligations.NonOkStatusChangesNothing : Prop :=
  ∀ (i : Instr) (s t : State), exec i s = .next t →
    ∃ st, t.statuses = s.statuses ++ [st] ∧
      (st ≠ .ok → t = { s with statuses := s.statuses ++ [st] })

/-- 41_commands.md R125: what each command writes on its OK path, and that WRITE, INVALID and Overlong have none. It rests on the
spec's decisions D4 (the push), D8 and D30 (STOP, CLOCK), D15 (operands), D16 (WRITE) and D24 (LOAD). -/
def Obligations.OkPathWrites : Prop :=
  ∀ (i : Instr) (s t : State), exec i s = .next t → t.statuses = s.statuses ++ [.ok] →
    (∃ argv, i = .noop argv ∧ t = s.reply .ok) ∨
    (∃ v, frameCommandValue i = some v ∧
      t = { s with sw := Vector.replicate 32 v, pend := true, frame := pack (Vector.replicate 32 v),
                   txq := s.txq ++ uniformFrame v, statuses := s.statuses ++ [.ok] }) ∨
    (∃ argv, i = .load argv ∧ t = { s with trace := s.trace ++ [.strobe], statuses := s.statuses ++ [.ok] }) ∨
    (∃ argv, i = .clock argv ∧ t = { s with clkEn := true, statuses := s.statuses ++ [.ok] }) ∨
    (∃ argv, i = .stop argv ∧ t = { s with clkEn := false, txq := [], statuses := s.statuses ++ [.ok] })

/-- 41_commands.md R123 and 30_encoding.md R76: a SELECT of an unrecognised character has the effect of CLEAR. Which characters are
recognised, both cases of the five letters, is the spec's decision D22. -/
def Obligations.UnrecognisedSelectActsAsClear : Prop :=
  ∀ (c : Byte) (argv : List Token) (s : State), c ∉ ([0x41, 0x42, 0x43, 0x44, 0x45, 0x61, 0x62, 0x63, 0x64, 0x65] : List Byte) →
    exec (.select [[c]]) s = exec (.clear argv) s

/-- 60_exceptions.md R180 and 30_encoding.md R63: the numeric codes (the spec's decisions D12 and D13), each code one command. -/
def Obligations.NumericCodes : Prop :=
  [Cmd.noop, .clear, .write, .select, .load, .clock, .stop, .invalid].map Cmd.code = [0, 1, 2, 3, 4, 5, 6, 7] ∧
  (∀ c, Cmd.ofCode c.code = c) ∧ (∀ n, (Cmd.ofCode n).code = n) ∧
  [Status.ok, .invalidCommand, .tooManyArgs, .argCountError, .argFormatError, .clockActiveError, .notImplemented].map Status.code
    = [0, 1, 2, 3, 4, 5, 6]

/-! ## Steps -/

/-- 10_state.md R29 and 20_memory.md R52: on CU's turn the oldest line is taken, and the step is the decoded instruction's own effect.
That the host's commands are a list of lines and CU's turn an entry of a schedule is the model's choice (assumptions 7 and 2). -/
def Obligations.StepRunsDecodedInstruction : Prop :=
  ∀ (s : State) (line : Line) (rest : List Line), nextTurn s = .agent .cu → s.input = line :: rest →
    step s = exec (decode line) { consumeTurn s with input := rest }

/-- 20_memory.md R51 (the spec's decision D17; the list of turns and the free choice after it are assumption 2 of this model):
the next turn is the schedule's head, and choosing it touches nothing but the schedule. -/
def Obligations.TurnChoiceTouchesOnlySchedule : Prop :=
  (∀ (s : State) (t : Turn) (rest : List Turn), s.sched = t :: rest → nextTurn s = t ∧ consumeTurn s = { s with sched := rest }) ∧
  (∀ s : State, s.sched = [] → nextTurn s = Config.freeTurn s.tick ∧ consumeTurn s = { s with tick := s.tick + 1 })

/-- 70_reset_and_hazards.md R201 and R203: with no line to take CU waits, and a connection reset keeps every piece of block state.
That a turn of CU without a line changes nothing is the model's choice (assumption 3); that a reconnect is a turn of its own is
deduced (assumption 11), and that it keeps the block's state is the spec's decision D32. -/
def Obligations.WaitingAndReconnectChangeNothing : Prop :=
  ∀ s : State, (nextTurn s = .agent .cu ∧ s.input = []) ∨ nextTurn s = .reconnect → step s = .next (consumeTurn s)

/-- 42_serializer.md R150 (when completion is raised is the spec's decision D5; the idle turn on an empty queue is assumption 3). -/
def Obligations.SerializerStep : Prop :=
  ∀ s : State, nextTurn s = .agent .ser →
    (s.txq = [] → step s = .next (consumeTurn s)) ∧
    (∀ b, s.txq = [b] → step s = .next { consumeTurn s with
      txq := [], trace := s.trace ++ [.wireByte b], done := true }) ∧
    (∀ b c rest, s.txq = b :: c :: rest → step s = .next { consumeTurn s with
      txq := c :: rest, trace := s.trace ++ [.wireByte b] })

/-- 42_serializer.md R152 (a completion with nothing pending is the spec's decision D6; the idle turn is assumption 3). -/
def Obligations.CompletionHandlerStep : Prop :=
  ∀ s : State, nextTurn s = .agent .ch →
    (s.done = false → step s = .next (consumeTurn s)) ∧
    (s.done = true → s.pend = false → step s = .next { consumeTurn s with done := false }) ∧
    (s.done = true → s.pend = true → step s = .next { consumeTurn s with
      done := false, pend := false, trace := s.trace ++ [.strobe] })

/-- 42_serializer.md R153 (one byte per step is the spec's decision D23; the idle turn is assumption 3). -/
def Obligations.IdleFillerStep : Prop :=
  ∀ s : State, nextTurn s = .agent .fill →
    (s.clkEn = true → s.txq.length < 4 → step s = .next { consumeTurn s with txq := s.txq ++ [0x00] }) ∧
    (s.clkEn = false ∨ 4 ≤ s.txq.length → step s = .next (consumeTurn s))

/-- 60_exceptions.md R192 and 30_encoding.md R67: a step stops exactly where START_FRAME finds no room (the spec's decision D9), and no
line is refused. -/
def Obligations.StepStopsOnlyOnOverflow : Prop :=
  ∀ s : State,
    (∀ r, step s = .fault r ↔
      r = .txQueueOverflow ∧ s.clkEn = false ∧ s.cfg.txqCap < s.txq.length + 20 ∧
        ∃ i v, executing s = some i ∧ frameCommandValue i = some v) ∧
    ∀ r, step s ≠ .refused r

/-! ## Rules of the whole machine -/

/-- 10_state.md R20 and R26: only CLEAR and SELECT write the matrix and the frame buffer; each writes all 32 switches with one
value and the frame with PACK of it, pushed in index order in the same step (the spec's decisions D3 and D4). -/
def Obligations.MatrixAndFrameWriters : Prop :=
  ∀ s t : State, step s = .next t → t.sw ≠ s.sw ∨ t.frame ≠ s.frame →
    ∃ i v, executing s = some i ∧ frameCommandValue i = some v ∧ s.clkEn = false ∧
      t.sw = Vector.replicate 32 v ∧ t.frame = pack t.sw ∧ t.txq = s.txq ++ t.frame.toList

/-- 10_state.md R23: CLOCK sets `CLK_EN`, STOP clears it (in either state of the flag: the spec's decision D30), and no other step writes it. -/
def Obligations.ClockFlagWriters : Prop :=
  ∀ s t : State, step s = .next t →
    (∀ argv, executing s = some (.clock argv) → t.clkEn = true) ∧
    (∀ argv, executing s = some (.stop argv) → t.clkEn = false) ∧
    ((∀ argv, executing s ≠ some (.clock argv) ∧ executing s ≠ some (.stop argv)) → t.clkEn = s.clkEn)

/-- 10_state.md R24 and 20_memory.md R53: `PEND` goes to 1 only in a step that starts a frame and to 0 only in CH's step on a
completion, which pulses the strobe. That STOP leaves `PEND` alone is the spec's decision D8. -/
def Obligations.PendingFlagDiscipline : Prop :=
  ∀ s t : State, step s = .next t →
    (s.pend = false → t.pend = true →
      ∃ i v, executing s = some i ∧ frameCommandValue i = some v ∧ t.txq = s.txq ++ uniformFrame v) ∧
    (s.pend = true → t.pend = false →
      nextTurn s = .agent .ch ∧ s.done = true ∧ t.trace = s.trace ++ [.strobe])

/-- 10_state.md R25 and 60_exceptions.md R184: `DONE` goes to 1 only where SER shifts the queue's last byte and to 0 only in CH's step.
When completion is raised, the single slot, and that STOP leaves `DONE` alone are the spec's decisions D5, D6 and D8. -/
def Obligations.CompletionSignalDiscipline : Prop :=
  ∀ s t : State, step s = .next t →
    (s.done = false → t.done = true →
      nextTurn s = .agent .ser ∧ ∃ b, s.txq = [b] ∧ t.txq = [] ∧ t.trace = s.trace ++ [.wireByte b]) ∧
    (s.done = true → t.done = false → nextTurn s = .agent .ch)

/-- 10_state.md R28 and 42_serializer.md R154: a step emits at most one event; a byte comes from SER, a strobe from CH or LOAD. That CH
strobes only with `PEND = 1` and LOAD at once are the spec's decisions D6 and D24. -/
def Obligations.EventSources : Prop :=
  ∀ s t : State, step s = .next t →
    t.trace = s.trace ∨
    (∃ b, nextTurn s = .agent .ser ∧ s.txq = b :: t.txq ∧ t.trace = s.trace ++ [.wireByte b]) ∨
    (t.trace = s.trace ++ [.strobe] ∧
      ((nextTurn s = .agent .ch ∧ s.done = true ∧ s.pend = true ∧ t.pend = false) ∨
       (s.clkEn = false ∧ ∃ argv, executing s = some (.load argv))))

/-- 41_commands.md R112 over steps: a step that executes a command appends one status and takes one line; every other step neither.
The lists of lines and of statuses are the model's choice (assumptions 7 and 9). That the open parameters of 00_scope.md R7 stand in
State as `cfg`, which no step writes, is the model's choice too (assumption 4). -/
def Obligations.OneStatusPerCommand : Prop :=
  ∀ s t : State, step s = .next t →
    t.cfg = s.cfg ∧
    (executing s = none → t.statuses = s.statuses ∧ t.input = s.input) ∧
    (∀ i, executing s = some i →
      (∃ st, t.statuses = s.statuses ++ [st]) ∧ ∃ line, s.input = line :: t.input ∧ decode line = i)

/-- 20_memory.md R44, R47 and R52: bytes leave in the order they were pushed. The bytes shifted out followed by the queue grow only at
their end: by a whole frame in index order (the spec's decisions D3 and D4), by one idle byte (D23), or, on STOP, the queue is discarded (D8). -/
def Obligations.QueueIsFirstInFirstOut : Prop :=
  ∀ s t : State, step s = .next t →
    (∃ argv, executing s = some (.stop argv) ∧ t.txq = [] ∧ wireBytes t.trace = wireBytes s.trace) ∨
    ∃ pushed, wireBytes t.trace ++ t.txq = wireBytes s.trace ++ s.txq ++ pushed ∧
      (pushed = [] ∨
       (pushed = [0x00] ∧ nextTurn s = .agent .fill ∧ s.clkEn = true ∧ s.txq.length < 4) ∨
       (∃ i v, executing s = some i ∧ frameCommandValue i = some v ∧ pushed = uniformFrame v))

/-- 20_memory.md R52 over runs: unless the host sends STOP, no queued byte is lost, repeated or reordered, whatever the interleaving
(the spec's decision D17; the list of turns and the free choice after it are assumption 2 of this model). -/
def Obligations.NoByteLostWithoutStop : Prop :=
  ∀ (k : Nat) (s t : State), (∀ line ∈ s.input, ∀ argv, decode line ≠ .stop argv) → runSteps k s = .next t →
    (wireBytes s.trace ++ s.txq) <+: (wireBytes t.trace ++ t.txq)

/-! ## Reset and invariants -/

/-- 10_state.md R32 and 70_reset_and_hazards.md R200, for every value of the open parameters. The flags' and the queue's values and
`SW_RESET` are the spec's decisions D10 and D11; that `FRAME`, which R26 leaves at any value, is a named free value is assumption 5,
and that the open parameters of 00_scope.md R7 stand in State is assumption 4. -/
def Obligations.ResetState : Prop :=
  State.reset = State.resetWith Config.machine ∧
  ∀ c : Config,
    (∀ n : Fin 32, (State.resetWith c).sw[n] = c.swReset) ∧
    (State.resetWith c).clkEn = false ∧ (State.resetWith c).pend = false ∧ (State.resetWith c).done = false ∧
    (State.resetWith c).txq = [] ∧ (State.resetWith c).trace = [] ∧ (State.resetWith c).cfg = c ∧
    20 ≤ c.txqCap

/-- 10_state.md R22, R27 and R32, 42_serializer.md R157: the reset half of `StepKeepsInvariant` and `ArmedStrobeIsNotStranded`, and
quiescence. The values of the flags and the queue are the spec's decision D10, and the uniform matrix its decision D11; that no line is
presented at reset, on which quiescence rests, is the model's choice (assumptions 7 and 10). -/
def Obligations.ResetMeetsInvariant : Prop :=
  MachineInv State.reset ∧ ArmedStrobeHasCompletion State.reset ∧ Quiescent State.reset

/-- 10_state.md R22 and R27, 42_serializer.md R153: every step keeps the queue within `TXQ_CAP` and the matrix uniform, and no step
changes a parameter. The capacity check and FILL's single byte are the spec's decisions D9 and D23; that the open parameters of 00_scope.md
R7 stand in State as `cfg`, which no step writes, is the model's choice (assumption 4). -/
def Obligations.StepKeepsInvariant : Prop :=
  ∀ s t : State, MachineInv s → step s = .next t → MachineInv t ∧ t.cfg = s.cfg

/-- 42_serializer.md R157 and 70_reset_and_hazards.md R213: while no STOP is executed, an armed strobe always has a completion to come.
It rests on when completion is raised and taken (the spec's decisions D5 and D6). -/
def Obligations.ArmedStrobeIsNotStranded : Prop :=
  ∀ s t : State, ArmedStrobeHasCompletion s → (∀ argv, executing s ≠ some (.stop argv)) → step s = .next t →
    ArmedStrobeHasCompletion t

/-! ## Encodings -/

/-- 30_encoding.md R62, R64, R73, R74: every well-formed instruction, with every operand list a line can carry, is read back from the
line that spells it. Which line spells INVALID and Overlong is the model's choice (assumption 8); that operands leave token 0 out is the
spec's decision D14. -/
def Obligations.DecodeOfEncode : Prop :=
  ∀ i : Instr, WellFormed i = true → decode (encode i) = i

/-- 30_encoding.md R62: records and instructions correspond one to one (that operands leave token 0 out is the spec's decision D14). -/
def Obligations.RecordRoundTrip : Prop :=
  (∀ i, decodeRecord (encodeRecord i) = i) ∧ (∀ r, encodeRecord (decodeRecord r) = r)

/-- 30_encoding.md R67: every line of any bytes decodes to a well-formed outcome (bytes outside ASCII are ordinary token bytes, and an
empty line is INVALID: the spec's decisions D20 and D19). -/
def Obligations.EveryLineDecodesWellFormed : Prop :=
  ∀ line : Line, WellFormed (decode line) = true

/-- 30_encoding.md R71: tokens are the maximal non-empty runs of non-whitespace bytes, in line order. A run without whitespace is one
token, and a whitespace byte separates the tokens before it from those after it. It holds whichever bytes are whitespace;
`WhitespaceBytes` says which. -/
def Obligations.TokensAreMaximalRuns : Prop :=
  tokenize [] = [] ∧
  (∀ t : Token, tokenWf t = true → tokenize t = [t]) ∧
  (∀ (a b : Line) (w : Byte), isSpace w = true → tokenize (a ++ w :: b) = tokenize a ++ tokenize b) ∧
  (∀ line : Line, ∀ t ∈ tokenize line, tokenWf t = true)

/-- 30_encoding.md R72: the whitespace bytes are exactly 0x20 and 0x09 to 0x0D (the spec's decision D20, from general knowledge, G1). -/
def Obligations.WhitespaceBytes : Prop :=
  ∀ w : Byte, isSpace w = true ↔ w.toNat = 0x20 ∨ (0x09 ≤ w.toNat ∧ w.toNat ≤ 0x0D)

/-- 30_encoding.md R64 and R73 (the order of the checks and ASCII folding are the spec's decisions D19 and D21): which outcome a line's
tokens give, and what case folding does to each byte: `a`..`z`, 0x61 to 0x7A, lose 0x20, and no other byte changes. -/
def Obligations.TokenZeroSelectsCommand : Prop :=
  ∀ line : Line,
    (decode line = .overlong ↔ 12 < (tokenize line).length) ∧
    (∀ t argv, tokenize line = t :: argv → argv.length ≤ 11 →
      (∀ c, c ≠ Cmd.invalid →
        (encodeRecord (decode line) = .parsed c argv ↔ t.map foldCase = nameOfCmd c)) ∧
      (encodeRecord (decode line) = .parsed .invalid argv ↔ ∀ c, c ≠ Cmd.invalid → t.map foldCase ≠ nameOfCmd c)) ∧
    (∀ b : Byte, 0x61 ≤ b.toNat → b.toNat ≤ 0x7A → (foldCase b).toNat = b.toNat - 0x20) ∧
    (∀ b : Byte, b.toNat < 0x61 ∨ 0x7A < b.toNat → foldCase b = b)

/-- Lines of 95_test_vectors.md sections 2.5 and 3, byte by byte, every command's name and lower case, mixed case and a tab among them
(the spec's decisions D20 and D21), and the record words of opcode_table.json. The codes are the spec's decision D12; that a word's code
is its bits 2 to 0 and its operands are none is the model's choice (assumption 10). -/
def Obligations.SpecLinesDecode : Prop :=
  decode [0x43, 0x4C, 0x45, 0x41, 0x52] = .clear [] ∧
  decode [0x53, 0x45, 0x4C, 0x45, 0x43, 0x54, 0x20, 0x41] = .select [[0x41]] ∧
  decode [0x57, 0x52, 0x49, 0x54, 0x45, 0x20, 0x30, 0x78, 0x31, 0x46] = .write [[0x30, 0x78, 0x31, 0x46]] ∧
  decode [0x46, 0x4F, 0x4F] = .invalid [] ∧
  decode [0x4E, 0x4F, 0x4F, 0x50] = .noop [] ∧
  decode [0x4C, 0x4F, 0x41, 0x44] = .load [] ∧
  decode [0x43, 0x4C, 0x4F, 0x43, 0x4B] = .clock [] ∧
  decode [0x53, 0x54, 0x4F, 0x50] = .stop [] ∧
  decode [0x73, 0x65, 0x6C, 0x65, 0x63, 0x74, 0x20, 0x42] = .select [[0x42]] ∧
  decode [0x20, 0x20, 0x53, 0x65, 0x4C, 0x65, 0x43, 0x74, 0x20, 0x20, 0x20, 0x62, 0x20, 0x20] = .select [[0x62]] ∧
  decode [0x53, 0x45, 0x4C, 0x45, 0x43, 0x54, 0x09, 0x41] = .select [[0x41]] ∧
  (List.range 8).map (decodeTableWord 8) =
    [some (.noop []), some (.clear []), some (.write []), some (.select []), some (.load []), some (.clock []),
     some (.stop []), some (.invalid [])]

/-! ## The codec -/

/-- 40_codec.md R93, with R91 and R92 (`S(i)`, and which switch stands at position `j` of group `i`). -/
def Obligations.GroupConstants : Prop :=
  (List.finRange 4).map groupOffset = [1, 1, 0, 0] ∧
  ∀ (i : Fin 4) (j : Fin 8), 8 * i.val + j.val = 31 - (switchIndex i j).val ∧
    32 - 8 * (i.val + 1) ≤ (switchIndex i j).val ∧ (switchIndex i j).val < 32 - 8 * i.val

/-- 40_codec.md R94: switch `j` of group `i` occupies bits `5j+S(i)` to `5j+S(i)+4` of its accumulator, and the bits below `S(i)` and
from `S(i)+40` up are 0. -/
def Obligations.AccumulatorFields : Prop :=
  ∀ (m : SwitchMatrix) (i : Fin 4),
    (∀ j : Fin 8, (accumulator m i).extractLsb' (5 * j.val + groupOffset i) 5 = m[switchIndex i j]) ∧
    (∀ p, p < groupOffset i ∨ groupOffset i + 40 ≤ p → (accumulator m i).getLsbD p = false)

/-- 40_codec.md R97: the normative algorithm and the closed form agree on every matrix (byte order and the frame's end: the spec's
decisions D1 and D2). -/
def Obligations.PackEqualsClosedForm : Prop :=
  ∀ m : SwitchMatrix, frameWord (pack m) = packWord m

/-- 30_encoding.md R60: on every matrix, every bit of every frame byte is what the spec's printed layout table says (byte order and the
frame's end: the spec's decisions D1 and D2). -/
def Obligations.FrameLayoutTable : Prop :=
  ∀ (m : SwitchMatrix) (k : Fin 20) (b : Fin 8),
    ((pack m)[k]).getLsbD b.val = layoutValue m (layoutEntry k.val b.val)

/-- 40_codec.md R97 and R98: switch `n`'s bit `t` lands at frame bit `155 - 5n + t` plus 1 for `n ≥ 16`; frame bit 0 is always 0; frame
bit 80 is `SW[16].A or SW[15].E`; every other switch bit can be read off the frame (byte order: the spec's decision D1). -/
def Obligations.SwitchBitsInFrame : Prop :=
  ∀ m : SwitchMatrix,
    frameBit (pack m) 0 = false ∧
    frameBit (pack m) 80 = (m[(16 : Fin 32)].getLsbD 4 || m[(15 : Fin 32)].getLsbD 0) ∧
    ∀ (n : Fin 32) (t : Fin 5), ¬(n = 16 ∧ t = 4) → ¬(n = 15 ∧ t = 0) →
      frameBit (pack m) (155 - 5 * n.val + t.val + if 16 ≤ n.val then 1 else 0) = m[n].getLsbD t.val

/-- 40_codec.md R98 item 3: exactly which matrices PACK does not tell apart (byte order: the spec's decision D1). -/
def Obligations.PackCollisions : Prop :=
  ∀ m m' : SwitchMatrix, pack m = pack m' ↔
    (m[(16 : Fin 32)].getLsbD 4 || m[(15 : Fin 32)].getLsbD 0) =
      (m'[(16 : Fin 32)].getLsbD 4 || m'[(15 : Fin 32)].getLsbD 0) ∧
    ∀ (n : Fin 32) (t : Fin 5), ¬(n = 16 ∧ t = 4) → ¬(n = 15 ∧ t = 0) → m[n].getLsbD t.val = m'[n].getLsbD t.val

/-- 40_codec.md R96: the order in which groups are merged does not change the frame (the merge itself: the spec's decisions D1 and D2). -/
def Obligations.GroupMergesCommute : Prop :=
  ∀ (m : SwitchMatrix) (f : Frame) (i j : Fin 4), mergeGroup m (mergeGroup m f i) j = mergeGroup m (mergeGroup m f j) i

/-- 40_codec.md R101: the frame of a uniform matrix repeats every 5 bytes within each half, but for the bits named (byte order: the
spec's decision D1). -/
def Obligations.UniformFrameRelations : Prop :=
  ∀ v : Switch,
    let f := pack (Vector.replicate 32 v)
    (∀ k : Fin 15, k.val ∈ [1, 2, 3, 4, 11, 12, 13, 14] → f[k.val + 5] = f[k.val]) ∧
    f[0].getLsbD 0 = false ∧ f[5] = f[0] ||| (v >>> 4).setWidth 8 ∧
    f[10].getLsbD 0 = (v.getLsbD 4 || v.getLsbD 0) ∧
    f[15] = (f[10] &&& 0xFE) ||| (v &&& 1).setWidth 8

/-- 40_codec.md R100 (that both cases of all five letters map is the spec's decision D22): MASK on every byte; at most one bit is set. -/
def Obligations.MaskTable : Prop :=
  ([0x41, 0x42, 0x43, 0x44, 0x45, 0x61, 0x62, 0x63, 0x64, 0x65] : List Byte).map mask = [16, 8, 4, 2, 1, 16, 8, 4, 2, 1] ∧
  (∀ c : Byte, c ∉ ([0x41, 0x42, 0x43, 0x44, 0x45, 0x61, 0x62, 0x63, 0x64, 0x65] : List Byte) → mask c = 0) ∧
  ∀ c : Byte, mask c ∈ ([0, 1, 2, 4, 8, 16] : List Switch)

/-! ## Transmission -/

/-- 42_serializer.md R151: the bits of a byte on the bus in either order (an open parameter: the spec's decision D7), and that a
shift-out appends them to the bit stream. -/
def Obligations.BusBitOrder : Prop :=
  (∀ b : Byte,
    wireBits .msbFirst b = [b.getLsbD 7, b.getLsbD 6, b.getLsbD 5, b.getLsbD 4, b.getLsbD 3, b.getLsbD 2, b.getLsbD 1, b.getLsbD 0] ∧
    wireBits .lsbFirst b = [b.getLsbD 0, b.getLsbD 1, b.getLsbD 2, b.getLsbD 3, b.getLsbD 4, b.getLsbD 5, b.getLsbD 6, b.getLsbD 7]) ∧
  ∀ (s t : State) (b : Byte) (rest : List Byte), nextTurn s = .agent .ser → s.txq = b :: rest → step s = .next t →
    busBits t = busBits s ++ wireBits s.cfg.wireBitOrder b

/-- 41_commands.md R110 with 42_serializer.md R150 and R152, under the schedule CU, SER twenty times, CH: a frame started on an empty
queue is shifted out whole, in index order, and then strobed exactly once. Under other interleavings, with `DONE = 1` at the start, CH
can strobe early (R210). It rests on the spec's decisions D3, D4 and D5. -/
def Obligations.FrameDeliveredThenStrobed : Prop :=
  ∀ (s : State) (line : Line) (rest : List Line) (v : Switch) (turns : List Turn), s.input = line :: rest → frameCommandValue (decode line) = some v →
    s.sched = .agent .cu :: serTurns 20 ++ .agent .ch :: turns →
    s.clkEn = false → s.txq = [] →
    runSteps 22 s = .next { s with
      sw := Vector.replicate 32 v, frame := pack (Vector.replicate 32 v), pend := false, done := false, txq := [],
      trace := s.trace ++ shiftedOut (uniformFrame v) ++ [.strobe], statuses := s.statuses ++ [.ok],
      input := rest, sched := turns }

/-- 70_reset_and_hazards.md R210: two frames back to back have three outcomes, by the interleaving alone. Two strobes, one after each
frame; one strobe after both; one early strobe before any byte of the second frame. It rests on the spec's decisions D3, D4, D5 and D6. -/
def Obligations.BackToBackFrames : Prop :=
  ∀ (s : State) (first second : Line) (v w : Switch), s.input = [first, second] →
    frameCommandValue (decode first) = some v → frameCommandValue (decode second) = some w →
    s.clkEn = false → s.txq = [] → 20 ≤ s.cfg.txqSpare →
    (∃ t, runSteps 44 { s with sched := .agent .cu :: serTurns 20 ++ .agent .ch :: .agent .cu :: serTurns 20 ++ [.agent .ch] } = .next t ∧
      t.trace = s.trace ++ shiftedOut (uniformFrame v) ++ [.strobe] ++ shiftedOut (uniformFrame w) ++ [.strobe] ∧
      t.pend = false ∧ t.done = false ∧ t.txq = []) ∧
    (∃ t, runSteps 43 { s with sched := .agent .cu :: .agent .cu :: serTurns 40 ++ [.agent .ch] } = .next t ∧
      t.trace = s.trace ++ shiftedOut (uniformFrame v) ++ shiftedOut (uniformFrame w) ++ [.strobe] ∧
      t.pend = false ∧ t.done = false ∧ t.txq = []) ∧
    (∃ t, runSteps 44 { s with sched := .agent .cu :: serTurns 20 ++ .agent .cu :: .agent .ch :: serTurns 20 ++ [.agent .ch] } = .next t ∧
      t.trace = s.trace ++ shiftedOut (uniformFrame v) ++ [.strobe] ++ shiftedOut (uniformFrame w) ∧
      t.pend = false ∧ t.done = false ∧ t.txq = [])

/-- 70_reset_and_hazards.md R213: STOP discards a pending frame and leaves its strobe armed; if the clock is set again, the strobe fires
once the idle bytes drain. It rests on the spec's decisions D5, D8 and D23. -/
def Obligations.StoppedFrameStrobesAfterIdleBytes : Prop :=
  ∀ (s : State) (stop clock : Line) (a b : List Token), s.input = [stop, clock] → decode stop = .stop a → decode clock = .clock b →
    s.pend = true → s.done = false →
    s.sched = [.agent .cu, .agent .ch, .agent .cu, .agent .fill, .agent .ser, .agent .ch] →
    ∃ t, runSteps 6 s = .next t ∧ t.trace = s.trace ++ [.wireByte 0x00, .strobe] ∧
      t.pend = false ∧ t.txq = [] ∧ t.clkEn = true ∧ t.sw = s.sw

/-- 42_serializer.md R156 and R157, bounded, over every interleaving: once the host is silent and the clock is off, a schedule of any
turns in any order that gives SER a turn for every queued byte and CH a turn after them ends quiescent, with every queued byte shifted
out in order and an armed strobe fired exactly once. It rests on the spec's decisions D5, D6 and D17 and on the model's turns
(assumptions 2 and 3). -/
def Obligations.DrainsUnderEveryInterleaving : Prop :=
  ∀ (s : State) (before after : List Turn), s.input = [] → s.clkEn = false → s.sched = before ++ .agent .ch :: after →
    s.txq.length ≤ before.count (.agent .ser) → ArmedStrobeHasCompletion s →
    ∃ t, runSteps s.sched.length s = .next t ∧ Quiescent t ∧ t.pend = false ∧ t.sched = [] ∧
      wireBytes t.trace = wireBytes s.trace ++ s.txq ∧
      strobes t.trace = strobes s.trace + (if s.pend then 1 else 0)

/-- 42_serializer.md R156 and R157: with the premise that the transport does not wedge (SER is weakly fair, and so is CH: the spec's
decision D34), a run whose host is silent and whose clock is off reaches quiescence, every queued byte shifted out in order and an armed
strobe fired once. It rests on the spec's decisions D5 and D6; the order of the turns is the run's own, and the statement holds for every
value of the free turns (assumption 2). -/
def Obligations.FairRunReachesQuiescence : Prop :=
  ∀ r : Nat → State, IsRun r → WeaklyFair .ser r → WeaklyFair .ch r →
    (r 0).input = [] → (r 0).clkEn = false → ArmedStrobeHasCompletion (r 0) →
    ∃ k, Quiescent (r k) ∧ (r k).pend = false ∧
      wireBytes (r k).trace = wireBytes (r 0).trace ++ (r 0).txq ∧
      strobes (r k).trace = strobes (r 0).trace + (if (r 0).pend then 1 else 0)
end

