-- ==== Sys2Proof/Laws/Codec.lean ====
section
/-! SUPPORT. The codec bit by bit: a bit of an accumulator, of a packed frame, of the closed form and of a frame word is a bit of the switch whose lane covers it. -/

namespace Sys2Proof.Machine

/-! ## Folds of OR -/

theorem getLsbD_foldl_or {α : Type} {w : Nat} (g : α → BitVec w) (p : Nat) :
    ∀ (l : List α) (a : BitVec w),
      (l.foldl (fun acc x => acc ||| g x) a).getLsbD p = (a.getLsbD p || l.any fun x => (g x).getLsbD p)
  | [], a => by simp
  | x :: l, a => by rw [List.foldl_cons, getLsbD_foldl_or g p l]; simp [Bool.or_assoc]

theorem getLsbD_setWidth_shiftLeft {v w : Nat} (x : BitVec v) (n p : Nat) (h : n + v ≤ w) :
    (x.setWidth w <<< n).getLsbD p = (decide (n ≤ p) && x.getLsbD (p - n)) := by
  rw [BitVec.getLsbD_shiftLeft, BitVec.getLsbD_setWidth]
  by_cases hnp : n ≤ p
  · by_cases hv : p - n < v
    · simp [hnp, show p < w by omega, show p - n < w by omega]
    · simp [BitVec.getLsbD_of_ge x (p - n) (by omega)]
  · simp [show p < n by omega, hnp]

/-! ## Lanes -/

theorem groupOffset_le (i : Fin 4) : groupOffset i ≤ 1 := by unfold groupOffset; omega

/-- The lane of the switch at position `j` of group `i` (R97's proof sketch). -/
theorem laneOffset_switchIndex : ∀ (i : Fin 4) (j : Fin 8),
    laneOffset (switchIndex i j) = 40 * i.val + 5 * j.val + groupOffset i := by decide

theorem laneOffset_le : ∀ n : Fin 32, laneOffset n ≤ 155 := by decide

/-- Each switch has a group and a position in it (R91, R92). -/
theorem exists_switchIndex : ∀ n : Fin 32, ∃ (i : Fin 4) (j : Fin 8), switchIndex i j = n := by decide

/-- A switch bit lands on frame bit `p` (R97). -/
def LandsOn (m : SwitchMatrix) (p : Nat) (n : Fin 32) : Prop :=
  laneOffset n ≤ p ∧ (m[n]).getLsbD (p - laneOffset n) = true

/-! ## Accumulators -/

theorem accumulator_getLsbD (m : SwitchMatrix) (i : Fin 4) (p : Nat) :
    (accumulator m i).getLsbD p = true ↔
      ∃ j : Fin 8, 5 * j.val + groupOffset i ≤ p ∧
        (m[switchIndex i j]).getLsbD (p - (5 * j.val + groupOffset i)) = true := by
  have hs := groupOffset_le i
  rw [accumulator, getLsbD_foldl_or (fun j : Fin 8 => (m[switchIndex i j]).setWidth 64 <<< (5 * j.val + groupOffset i))]
  have : ∀ j : Fin 8, ((m[switchIndex i j]).setWidth 64 <<< (5 * j.val + groupOffset i)).getLsbD p =
      (decide (5 * j.val + groupOffset i ≤ p) && (m[switchIndex i j]).getLsbD (p - (5 * j.val + groupOffset i))) :=
    fun j => getLsbD_setWidth_shiftLeft _ _ _ (by omega)
  simp only [BitVec.ofNat_eq_ofNat, BitVec.getLsbD_zero, Bool.false_or, List.any_eq_true, List.mem_finRange,
    true_and, this, Bool.and_eq_true, decide_eq_true_eq]

/-! ## The packed frame -/

theorem orFrameByte_getElem (f : Frame) (k : Nat) (b : Byte) (x : Fin 20) :
    (orFrameByte f k b)[x] = if k = x.val then f[x] ||| b else f[x] := by
  unfold orFrameByte
  split
  · simp only [Fin.getElem_fin, Vector.getElem_set]
    split <;> simp_all
  · rw [if_neg (by omega)]

/-- What the merge of a group adds to a byte: the accumulator's byte inside its window, nothing outside (R95). -/
def mergedByte (m : SwitchMatrix) (i : Fin 4) (x : Fin 20) : Byte :=
  if 5 * i.val ≤ x.val ∧ x.val ≤ 5 * i.val + 5 then accByte (accumulator m i) (x.val - 5 * i.val) else 0

theorem mergeFold_getElem (m : SwitchMatrix) (i : Fin 4) (x : Fin 20) :
    ∀ (n : Nat) (f : Frame),
      ((List.range n).foldl (fun g b => orFrameByte g (5 * i.val + b) (accByte (accumulator m i) b)) f)[x] =
        if 5 * i.val ≤ x.val ∧ x.val < 5 * i.val + n then f[x] ||| accByte (accumulator m i) (x.val - 5 * i.val) else f[x]
  | 0, f => by rw [if_neg (by omega)]; rfl
  | n + 1, f => by
    rw [List.range_succ, List.foldl_append, List.foldl_cons, List.foldl_nil, orFrameByte_getElem,
      mergeFold_getElem m i x n f]
    by_cases h : 5 * i.val + n = x.val
    · rw [if_pos h, if_neg (by omega), if_pos (by omega), show x.val - 5 * i.val = n by omega]
    · rw [if_neg h]
      by_cases h2 : 5 * i.val ≤ x.val ∧ x.val < 5 * i.val + n
      · rw [if_pos h2, if_pos (by omega)]
      · rw [if_neg h2, if_neg (by omega)]

theorem mergeGroup_getElem (m : SwitchMatrix) (f : Frame) (i : Fin 4) (x : Fin 20) :
    (mergeGroup m f i)[x] = f[x] ||| mergedByte m i x := by
  have h := mergeFold_getElem m i x 6 f
  rw [mergeGroup]
  refine h.trans ?_
  unfold mergedByte
  by_cases hw : 5 * i.val ≤ x.val ∧ x.val ≤ 5 * i.val + 5
  · rw [if_pos hw, if_pos (by omega)]
  · rw [if_neg hw, if_neg (by omega)]; simp

theorem mergeGroups_getElem (m : SwitchMatrix) (x : Fin 20) :
    ∀ (l : List (Fin 4)) (f : Frame),
      (l.foldl (mergeGroup m) f)[x] = l.foldl (fun acc i => acc ||| mergedByte m i x) f[x]
  | [], f => rfl
  | i :: l, f => by
    rw [List.foldl_cons, List.foldl_cons, mergeGroups_getElem m x l, mergeGroup_getElem]

/-- A bit of a packed frame byte is set exactly when some switch bit lands on it (R96, R97). -/
theorem pack_getLsbD (m : SwitchMatrix) (x : Fin 20) (b : Nat) (hb : b < 8) :
    ((pack m)[x]).getLsbD b = true ↔ ∃ n, LandsOn m (8 * x.val + b) n := by
  rw [pack, mergeGroups_getElem, getLsbD_foldl_or (fun i => mergedByte m i x)]
  have hz : ((Vector.replicate 20 (0 : Byte))[x]).getLsbD b = false := by simp
  rw [hz, Bool.false_or, List.any_eq_true]
  constructor
  · rintro ⟨i, -, h⟩
    simp only [mergedByte] at h
    split at h
    next hw =>
      rw [accByte, BitVec.getLsbD_extractLsb', Bool.and_eq_true, accumulator_getLsbD] at h
      obtain ⟨-, j, hj, hbit⟩ := h
      have hl := laneOffset_switchIndex i j
      refine ⟨switchIndex i j, by omega, ?_⟩
      rw [show 8 * x.val + b - laneOffset (switchIndex i j) =
        8 * (x.val - 5 * i.val) + b - (5 * j.val + groupOffset i) by omega]
      exact hbit
    next => simp at h
  · rintro ⟨n, hle, hbit⟩
    obtain ⟨i, j, rfl⟩ := exists_switchIndex n
    have hl := laneOffset_switchIndex i j
    have hs := groupOffset_le i
    have h5 : 8 * x.val + b - laneOffset (switchIndex i j) < 5 := BitVec.lt_of_getLsbD hbit
    refine ⟨i, List.mem_finRange i, ?_⟩
    rw [mergedByte, if_pos (by omega), accByte, BitVec.getLsbD_extractLsb', Bool.and_eq_true,
      accumulator_getLsbD]
    refine ⟨by simpa using hb, j, by omega, ?_⟩
    rw [show 8 * (x.val - 5 * i.val) + b - (5 * j.val + groupOffset i) =
      8 * x.val + b - laneOffset (switchIndex i j) by omega]
    exact hbit

/-! ## The closed form and the frame word -/

theorem packWord_getLsbD (m : SwitchMatrix) (p : Nat) : (packWord m).getLsbD p = true ↔ ∃ n, LandsOn m p n := by
  rw [packWord, getLsbD_foldl_or (fun n : Fin 32 => (m[n]).setWidth 160 <<< laneOffset n)]
  have : ∀ n : Fin 32, ((m[n]).setWidth 160 <<< laneOffset n).getLsbD p =
      (decide (laneOffset n ≤ p) && (m[n]).getLsbD (p - laneOffset n)) := fun n =>
    getLsbD_setWidth_shiftLeft _ _ _ (by have := laneOffset_le n; omega)
  simp only [BitVec.ofNat_eq_ofNat, BitVec.getLsbD_zero, Bool.false_or, List.any_eq_true, List.mem_finRange,
    true_and, this, Bool.and_eq_true, decide_eq_true_eq, LandsOn]

theorem frameWord_getLsbD (f : Frame) (x : Fin 20) (b : Nat) (hb : b < 8) :
    (frameWord f).getLsbD (8 * x.val + b) = (f[x]).getLsbD b := by
  rw [Bool.eq_iff_iff, frameWord, getLsbD_foldl_or (fun k : Fin 20 => (f[k]).setWidth 160 <<< (8 * k.val))]
  have : ∀ k : Fin 20, ((f[k]).setWidth 160 <<< (8 * k.val)).getLsbD (8 * x.val + b) =
      (decide (8 * k.val ≤ 8 * x.val + b) && (f[k]).getLsbD (8 * x.val + b - 8 * k.val)) := fun k =>
    getLsbD_setWidth_shiftLeft _ _ _ (by omega)
  simp only [BitVec.ofNat_eq_ofNat, BitVec.getLsbD_zero, Bool.false_or, List.any_eq_true, List.mem_finRange,
    true_and, this, Bool.and_eq_true, decide_eq_true_eq]
  constructor
  · rintro ⟨k, hk, h⟩
    have := BitVec.lt_of_getLsbD h
    have hkx : k = x := Fin.ext (by omega)
    subst hkx
    simpa using h
  · intro h
    exact ⟨x, by omega, by simpa using h⟩

theorem frameBit_eq (f : Frame) (x : Fin 20) (b : Nat) (hb : b < 8) :
    frameBit f (8 * x.val + b) = (f[x]).getLsbD b := by
  have h1 : (8 * x.val + b) / 8 = x.val := by omega
  have h2 : (8 * x.val + b) % 8 = b := by omega
  simp [frameBit, h1, h2]

/-- A frame bit of a packed matrix is set exactly when some switch bit lands on it. -/
theorem frameBit_pack (m : SwitchMatrix) {p : Nat} (hp : p < 160) :
    frameBit (pack m) p = true ↔ ∃ n, LandsOn m p n := by
  have h := frameBit_eq (pack m) ⟨p / 8, by omega⟩ (p % 8) (by omega)
  have hp' : 8 * (p / 8) + p % 8 = p := by omega
  simp only [hp'] at h
  rw [h, pack_getLsbD _ _ _ (by omega)]
  simp only [hp']

end Sys2Proof.Machine
end

