-- ==== Sys2Proof/Laws/Decode.lean ====
section
/-! SUPPORT. The tokenizer said once (a whitespace byte separates, a run is one token, every token is well-formed), and the command table. -/

namespace Sys2Proof

@[simp] theorem flushToken_nil (rest : List Token) : flushToken [] rest = rest := rfl

theorem flushToken_append (cur : Token) (a b : List Token) : flushToken cur (a ++ b) = flushToken cur a ++ b := by
  cases cur <;> rfl

theorem tokenizeFrom_space {w : Byte} (hw : isSpace w = true) (cur : Token) (bs : Line) :
    tokenizeFrom cur (w :: bs) = flushToken cur (tokenize bs) := by simp [tokenizeFrom, hw, tokenize]

theorem tokenizeFrom_byte {b : Byte} (hb : isSpace b = false) (cur : Token) (bs : Line) :
    tokenizeFrom cur (b :: bs) = tokenizeFrom (cur ++ [b]) bs := by simp [tokenizeFrom, hb]

/-- A whitespace byte separates the tokens before it from those after it. -/
theorem tokenizeFrom_append_space {w : Byte} (hw : isSpace w = true) (b : Line) :
    ∀ (a : Line) (cur : Token), tokenizeFrom cur (a ++ w :: b) = tokenizeFrom cur a ++ tokenize b
  | [], cur => by
    rw [List.nil_append, tokenizeFrom_space hw]
    cases cur <;> rfl
  | c :: a, cur => by
    cases hc : isSpace c
    · rw [List.cons_append, tokenizeFrom_byte hc, tokenizeFrom_byte hc, tokenizeFrom_append_space hw b a]
    · rw [List.cons_append, tokenizeFrom_space hc, tokenizeFrom_space hc, ← flushToken_append]
      exact congrArg _ (tokenizeFrom_append_space hw b a [])

/-- A run without whitespace extends the current token. -/
theorem tokenizeFrom_run : ∀ (t cur : Token), (t.all fun b => !isSpace b) = true →
    tokenizeFrom cur t = flushToken (cur ++ t) []
  | [], cur, _ => by simp [tokenizeFrom]
  | b :: t, cur, h => by
    simp only [List.all_cons, Bool.and_eq_true, Bool.not_eq_true'] at h
    rw [tokenizeFrom_byte h.1, tokenizeFrom_run t _ h.2, List.append_assoc, List.singleton_append]

theorem tokenize_token {t : Token} (h : tokenWf t = true) : tokenize t = [t] := by
  simp only [tokenWf, Bool.and_eq_true] at h
  rw [tokenize, tokenizeFrom_run t [] h.2]
  cases t with
  | nil => simp at h
  | cons b t => rfl

/-- Every token the tokenizer gives is a non-empty run of non-whitespace bytes. -/
theorem tokenizeFrom_wf : ∀ (line : Line) (cur : Token), (cur.all fun b => !isSpace b) = true →
    ∀ t ∈ tokenizeFrom cur line, tokenWf t = true
  | [], cur, hcur, t, ht => by
    cases cur with
    | nil => simp [tokenizeFrom] at ht
    | cons c cur =>
      simp only [tokenizeFrom, flushToken, List.mem_singleton] at ht
      subst ht
      simpa [tokenWf] using hcur
  | b :: line, cur, hcur, t, ht => by
    cases hb : isSpace b
    · rw [tokenizeFrom_byte hb] at ht
      exact tokenizeFrom_wf line (cur ++ [b]) (by rw [List.all_append, hcur]; simp [hb]) t ht
    · rw [tokenizeFrom_space hb] at ht
      cases cur with
      | nil => exact tokenizeFrom_wf line [] rfl t ht
      | cons c cur =>
        simp only [flushToken, List.mem_cons] at ht
        obtain rfl | ht := ht
        · simpa [tokenWf] using hcur
        · exact tokenizeFrom_wf line [] rfl t ht

theorem tokenize_wf (line : Line) {t : Token} (h : t ∈ tokenize line) : tokenWf t = true :=
  tokenizeFrom_wf line [] rfl t h

/-- Tokens spelled with a space before each are read back. -/
theorem tokenize_spell {t : Token} (ht : tokenWf t = true) :
    ∀ {ts : List Token}, ts.all tokenWf = true → tokenize (t ++ spellArgs ts) = t :: ts := by
  intro ts
  induction ts generalizing t with
  | nil => intro _; simpa [spellArgs] using tokenize_token ht
  | cons u ts ih =>
    intro h
    rw [List.all_cons, Bool.and_eq_true] at h
    rw [spellArgs, tokenize, tokenizeFrom_append_space (w := 0x20) rfl, ih h.1 h.2]
    exact congrArg (· ++ (u :: ts)) (tokenize_token ht)

/-! ## The command table -/

theorem nameOfCmd_wf (c : Cmd) : tokenWf (nameOfCmd c) = true := by cases c <;> decide

theorem cmdOfToken_nameOfCmd (c : Cmd) : cmdOfToken (nameOfCmd c) = c := by cases c <;> decide

theorem nameOfCmd_injective : ∀ {a b : Cmd}, nameOfCmd a = nameOfCmd b → a = b := by
  intro a b h
  rw [← cmdOfToken_nameOfCmd a, h, cmdOfToken_nameOfCmd]

/-- A token names a command other than INVALID exactly when it is that command's name after case folding. -/
theorem cmdOfToken_eq_iff {t : Token} {c : Cmd} (hc : c ≠ .invalid) :
    cmdOfToken t = c ↔ t.map foldCase = nameOfCmd c := by
  unfold cmdOfToken
  generalize t.map foldCase = u
  simp only [commandTable, List.find?]
  constructor
  · intro h
    repeat' split at h
    all_goals first
      | (exfalso; exact hc h.symm)
      | (subst h; simp_all [nameOfCmd])
  · rintro rfl
    cases c <;> rfl

@[simp] theorem decodeRecord_encodeRecord (i : Instr) : decodeRecord (encodeRecord i) = i := by cases i <;> rfl

@[simp] theorem encodeRecord_decodeRecord (r : Record) : encodeRecord (decodeRecord r) = r := by
  cases r with
  | overlong => rfl
  | parsed c argv => cases c <;> rfl

end Sys2Proof
end

