-- ==== Sys2Proof/Laws/State.lean ====
section
/-! SUPPORT. What each update of the state does to each field: one lemma per field and update. -/

namespace Sys2Proof.Machine

variable (s : State)

@[simp] theorem State.reply_cfg (st : Status) : (s.reply st).cfg = s.cfg := rfl
@[simp] theorem State.reply_sw (st : Status) : (s.reply st).sw = s.sw := rfl
@[simp] theorem State.reply_clkEn (st : Status) : (s.reply st).clkEn = s.clkEn := rfl
@[simp] theorem State.reply_pend (st : Status) : (s.reply st).pend = s.pend := rfl
@[simp] theorem State.reply_done (st : Status) : (s.reply st).done = s.done := rfl
@[simp] theorem State.reply_frame (st : Status) : (s.reply st).frame = s.frame := rfl
@[simp] theorem State.reply_txq (st : Status) : (s.reply st).txq = s.txq := rfl
@[simp] theorem State.reply_trace (st : Status) : (s.reply st).trace = s.trace := rfl
@[simp] theorem State.reply_statuses (st : Status) : (s.reply st).statuses = s.statuses ++ [st] := rfl
@[simp] theorem State.reply_input (st : Status) : (s.reply st).input = s.input := rfl
@[simp] theorem State.reply_sched (st : Status) : (s.reply st).sched = s.sched := rfl
@[simp] theorem State.reply_tick (st : Status) : (s.reply st).tick = s.tick := rfl

@[simp] theorem State.writeAllSwitches_cfg (v : Switch) : (s.writeAllSwitches v).cfg = s.cfg := rfl
@[simp] theorem State.writeAllSwitches_sw (v : Switch) : (s.writeAllSwitches v).sw = Vector.replicate 32 v := rfl
@[simp] theorem State.writeAllSwitches_clkEn (v : Switch) : (s.writeAllSwitches v).clkEn = s.clkEn := rfl
@[simp] theorem State.writeAllSwitches_pend (v : Switch) : (s.writeAllSwitches v).pend = s.pend := rfl
@[simp] theorem State.writeAllSwitches_done (v : Switch) : (s.writeAllSwitches v).done = s.done := rfl
@[simp] theorem State.writeAllSwitches_frame (v : Switch) : (s.writeAllSwitches v).frame = s.frame := rfl
@[simp] theorem State.writeAllSwitches_txq (v : Switch) : (s.writeAllSwitches v).txq = s.txq := rfl
@[simp] theorem State.writeAllSwitches_trace (v : Switch) : (s.writeAllSwitches v).trace = s.trace := rfl
@[simp] theorem State.writeAllSwitches_statuses (v : Switch) : (s.writeAllSwitches v).statuses = s.statuses := rfl
@[simp] theorem State.writeAllSwitches_input (v : Switch) : (s.writeAllSwitches v).input = s.input := rfl
@[simp] theorem State.writeAllSwitches_sched (v : Switch) : (s.writeAllSwitches v).sched = s.sched := rfl
@[simp] theorem State.writeAllSwitches_tick (v : Switch) : (s.writeAllSwitches v).tick = s.tick := rfl

@[simp] theorem State.setFrame_cfg (f : Frame) : (s.setFrame f).cfg = s.cfg := rfl
@[simp] theorem State.setFrame_sw (f : Frame) : (s.setFrame f).sw = s.sw := rfl
@[simp] theorem State.setFrame_clkEn (f : Frame) : (s.setFrame f).clkEn = s.clkEn := rfl
@[simp] theorem State.setFrame_pend (f : Frame) : (s.setFrame f).pend = s.pend := rfl
@[simp] theorem State.setFrame_done (f : Frame) : (s.setFrame f).done = s.done := rfl
@[simp] theorem State.setFrame_frame (f : Frame) : (s.setFrame f).frame = f := rfl
@[simp] theorem State.setFrame_txq (f : Frame) : (s.setFrame f).txq = s.txq := rfl
@[simp] theorem State.setFrame_trace (f : Frame) : (s.setFrame f).trace = s.trace := rfl
@[simp] theorem State.setFrame_statuses (f : Frame) : (s.setFrame f).statuses = s.statuses := rfl
@[simp] theorem State.setFrame_input (f : Frame) : (s.setFrame f).input = s.input := rfl
@[simp] theorem State.setFrame_sched (f : Frame) : (s.setFrame f).sched = s.sched := rfl
@[simp] theorem State.setFrame_tick (f : Frame) : (s.setFrame f).tick = s.tick := rfl

@[simp] theorem State.pushBytes_cfg (bs : List Byte) : (s.pushBytes bs).cfg = s.cfg := rfl
@[simp] theorem State.pushBytes_sw (bs : List Byte) : (s.pushBytes bs).sw = s.sw := rfl
@[simp] theorem State.pushBytes_clkEn (bs : List Byte) : (s.pushBytes bs).clkEn = s.clkEn := rfl
@[simp] theorem State.pushBytes_pend (bs : List Byte) : (s.pushBytes bs).pend = s.pend := rfl
@[simp] theorem State.pushBytes_done (bs : List Byte) : (s.pushBytes bs).done = s.done := rfl
@[simp] theorem State.pushBytes_frame (bs : List Byte) : (s.pushBytes bs).frame = s.frame := rfl
@[simp] theorem State.pushBytes_txq (bs : List Byte) : (s.pushBytes bs).txq = s.txq ++ bs := rfl
@[simp] theorem State.pushBytes_trace (bs : List Byte) : (s.pushBytes bs).trace = s.trace := rfl
@[simp] theorem State.pushBytes_statuses (bs : List Byte) : (s.pushBytes bs).statuses = s.statuses := rfl
@[simp] theorem State.pushBytes_input (bs : List Byte) : (s.pushBytes bs).input = s.input := rfl
@[simp] theorem State.pushBytes_sched (bs : List Byte) : (s.pushBytes bs).sched = s.sched := rfl
@[simp] theorem State.pushBytes_tick (bs : List Byte) : (s.pushBytes bs).tick = s.tick := rfl

@[simp] theorem State.setTxq_cfg (q : List Byte) : (s.setTxq q).cfg = s.cfg := rfl
@[simp] theorem State.setTxq_sw (q : List Byte) : (s.setTxq q).sw = s.sw := rfl
@[simp] theorem State.setTxq_clkEn (q : List Byte) : (s.setTxq q).clkEn = s.clkEn := rfl
@[simp] theorem State.setTxq_pend (q : List Byte) : (s.setTxq q).pend = s.pend := rfl
@[simp] theorem State.setTxq_done (q : List Byte) : (s.setTxq q).done = s.done := rfl
@[simp] theorem State.setTxq_frame (q : List Byte) : (s.setTxq q).frame = s.frame := rfl
@[simp] theorem State.setTxq_txq (q : List Byte) : (s.setTxq q).txq = q := rfl
@[simp] theorem State.setTxq_trace (q : List Byte) : (s.setTxq q).trace = s.trace := rfl
@[simp] theorem State.setTxq_statuses (q : List Byte) : (s.setTxq q).statuses = s.statuses := rfl
@[simp] theorem State.setTxq_input (q : List Byte) : (s.setTxq q).input = s.input := rfl
@[simp] theorem State.setTxq_sched (q : List Byte) : (s.setTxq q).sched = s.sched := rfl
@[simp] theorem State.setTxq_tick (q : List Byte) : (s.setTxq q).tick = s.tick := rfl

@[simp] theorem State.clearTxq_cfg : (s.clearTxq).cfg = s.cfg := rfl
@[simp] theorem State.clearTxq_sw : (s.clearTxq).sw = s.sw := rfl
@[simp] theorem State.clearTxq_clkEn : (s.clearTxq).clkEn = s.clkEn := rfl
@[simp] theorem State.clearTxq_pend : (s.clearTxq).pend = s.pend := rfl
@[simp] theorem State.clearTxq_done : (s.clearTxq).done = s.done := rfl
@[simp] theorem State.clearTxq_frame : (s.clearTxq).frame = s.frame := rfl
@[simp] theorem State.clearTxq_txq : (s.clearTxq).txq = [] := rfl
@[simp] theorem State.clearTxq_trace : (s.clearTxq).trace = s.trace := rfl
@[simp] theorem State.clearTxq_statuses : (s.clearTxq).statuses = s.statuses := rfl
@[simp] theorem State.clearTxq_input : (s.clearTxq).input = s.input := rfl
@[simp] theorem State.clearTxq_sched : (s.clearTxq).sched = s.sched := rfl
@[simp] theorem State.clearTxq_tick : (s.clearTxq).tick = s.tick := rfl

@[simp] theorem State.emit_cfg (e : Event) : (s.emit e).cfg = s.cfg := rfl
@[simp] theorem State.emit_sw (e : Event) : (s.emit e).sw = s.sw := rfl
@[simp] theorem State.emit_clkEn (e : Event) : (s.emit e).clkEn = s.clkEn := rfl
@[simp] theorem State.emit_pend (e : Event) : (s.emit e).pend = s.pend := rfl
@[simp] theorem State.emit_done (e : Event) : (s.emit e).done = s.done := rfl
@[simp] theorem State.emit_frame (e : Event) : (s.emit e).frame = s.frame := rfl
@[simp] theorem State.emit_txq (e : Event) : (s.emit e).txq = s.txq := rfl
@[simp] theorem State.emit_trace (e : Event) : (s.emit e).trace = s.trace ++ [e] := rfl
@[simp] theorem State.emit_statuses (e : Event) : (s.emit e).statuses = s.statuses := rfl
@[simp] theorem State.emit_input (e : Event) : (s.emit e).input = s.input := rfl
@[simp] theorem State.emit_sched (e : Event) : (s.emit e).sched = s.sched := rfl
@[simp] theorem State.emit_tick (e : Event) : (s.emit e).tick = s.tick := rfl

@[simp] theorem State.setInput_cfg (ls : List Line) : (s.setInput ls).cfg = s.cfg := rfl
@[simp] theorem State.setInput_sw (ls : List Line) : (s.setInput ls).sw = s.sw := rfl
@[simp] theorem State.setInput_clkEn (ls : List Line) : (s.setInput ls).clkEn = s.clkEn := rfl
@[simp] theorem State.setInput_pend (ls : List Line) : (s.setInput ls).pend = s.pend := rfl
@[simp] theorem State.setInput_done (ls : List Line) : (s.setInput ls).done = s.done := rfl
@[simp] theorem State.setInput_frame (ls : List Line) : (s.setInput ls).frame = s.frame := rfl
@[simp] theorem State.setInput_txq (ls : List Line) : (s.setInput ls).txq = s.txq := rfl
@[simp] theorem State.setInput_trace (ls : List Line) : (s.setInput ls).trace = s.trace := rfl
@[simp] theorem State.setInput_statuses (ls : List Line) : (s.setInput ls).statuses = s.statuses := rfl
@[simp] theorem State.setInput_input (ls : List Line) : (s.setInput ls).input = ls := rfl
@[simp] theorem State.setInput_sched (ls : List Line) : (s.setInput ls).sched = s.sched := rfl
@[simp] theorem State.setInput_tick (ls : List Line) : (s.setInput ls).tick = s.tick := rfl

@[simp] theorem State.setClkEn_cfg (b : Bool) : (s.setClkEn b).cfg = s.cfg := rfl
@[simp] theorem State.setClkEn_sw (b : Bool) : (s.setClkEn b).sw = s.sw := rfl
@[simp] theorem State.setClkEn_clkEn (b : Bool) : (s.setClkEn b).clkEn = b := rfl
@[simp] theorem State.setClkEn_pend (b : Bool) : (s.setClkEn b).pend = s.pend := rfl
@[simp] theorem State.setClkEn_done (b : Bool) : (s.setClkEn b).done = s.done := rfl
@[simp] theorem State.setClkEn_frame (b : Bool) : (s.setClkEn b).frame = s.frame := rfl
@[simp] theorem State.setClkEn_txq (b : Bool) : (s.setClkEn b).txq = s.txq := rfl
@[simp] theorem State.setClkEn_trace (b : Bool) : (s.setClkEn b).trace = s.trace := rfl
@[simp] theorem State.setClkEn_statuses (b : Bool) : (s.setClkEn b).statuses = s.statuses := rfl
@[simp] theorem State.setClkEn_input (b : Bool) : (s.setClkEn b).input = s.input := rfl
@[simp] theorem State.setClkEn_sched (b : Bool) : (s.setClkEn b).sched = s.sched := rfl
@[simp] theorem State.setClkEn_tick (b : Bool) : (s.setClkEn b).tick = s.tick := rfl

@[simp] theorem State.setPend_cfg (b : Bool) : (s.setPend b).cfg = s.cfg := rfl
@[simp] theorem State.setPend_sw (b : Bool) : (s.setPend b).sw = s.sw := rfl
@[simp] theorem State.setPend_clkEn (b : Bool) : (s.setPend b).clkEn = s.clkEn := rfl
@[simp] theorem State.setPend_pend (b : Bool) : (s.setPend b).pend = b := rfl
@[simp] theorem State.setPend_done (b : Bool) : (s.setPend b).done = s.done := rfl
@[simp] theorem State.setPend_frame (b : Bool) : (s.setPend b).frame = s.frame := rfl
@[simp] theorem State.setPend_txq (b : Bool) : (s.setPend b).txq = s.txq := rfl
@[simp] theorem State.setPend_trace (b : Bool) : (s.setPend b).trace = s.trace := rfl
@[simp] theorem State.setPend_statuses (b : Bool) : (s.setPend b).statuses = s.statuses := rfl
@[simp] theorem State.setPend_input (b : Bool) : (s.setPend b).input = s.input := rfl
@[simp] theorem State.setPend_sched (b : Bool) : (s.setPend b).sched = s.sched := rfl
@[simp] theorem State.setPend_tick (b : Bool) : (s.setPend b).tick = s.tick := rfl

@[simp] theorem State.setDone_cfg (b : Bool) : (s.setDone b).cfg = s.cfg := rfl
@[simp] theorem State.setDone_sw (b : Bool) : (s.setDone b).sw = s.sw := rfl
@[simp] theorem State.setDone_clkEn (b : Bool) : (s.setDone b).clkEn = s.clkEn := rfl
@[simp] theorem State.setDone_pend (b : Bool) : (s.setDone b).pend = s.pend := rfl
@[simp] theorem State.setDone_done (b : Bool) : (s.setDone b).done = b := rfl
@[simp] theorem State.setDone_frame (b : Bool) : (s.setDone b).frame = s.frame := rfl
@[simp] theorem State.setDone_txq (b : Bool) : (s.setDone b).txq = s.txq := rfl
@[simp] theorem State.setDone_trace (b : Bool) : (s.setDone b).trace = s.trace := rfl
@[simp] theorem State.setDone_statuses (b : Bool) : (s.setDone b).statuses = s.statuses := rfl
@[simp] theorem State.setDone_input (b : Bool) : (s.setDone b).input = s.input := rfl
@[simp] theorem State.setDone_sched (b : Bool) : (s.setDone b).sched = s.sched := rfl
@[simp] theorem State.setDone_tick (b : Bool) : (s.setDone b).tick = s.tick := rfl

@[simp] theorem presentLine_cfg (line : Line) : (presentLine s line).cfg = s.cfg := rfl
@[simp] theorem presentLine_sw (line : Line) : (presentLine s line).sw = s.sw := rfl
@[simp] theorem presentLine_clkEn (line : Line) : (presentLine s line).clkEn = s.clkEn := rfl
@[simp] theorem presentLine_pend (line : Line) : (presentLine s line).pend = s.pend := rfl
@[simp] theorem presentLine_done (line : Line) : (presentLine s line).done = s.done := rfl
@[simp] theorem presentLine_frame (line : Line) : (presentLine s line).frame = s.frame := rfl
@[simp] theorem presentLine_txq (line : Line) : (presentLine s line).txq = s.txq := rfl
@[simp] theorem presentLine_trace (line : Line) : (presentLine s line).trace = s.trace := rfl
@[simp] theorem presentLine_statuses (line : Line) : (presentLine s line).statuses = s.statuses := rfl
@[simp] theorem presentLine_input (line : Line) : (presentLine s line).input = line :: s.input := rfl
@[simp] theorem presentLine_sched (line : Line) : (presentLine s line).sched = .agent .cu :: s.sched := rfl
@[simp] theorem presentLine_tick (line : Line) : (presentLine s line).tick = s.tick := rfl

/-! Choosing a turn touches only the schedule and the count of free turns. -/

@[simp] theorem consumeTurn_cfg : (consumeTurn s).cfg = s.cfg := by
  unfold consumeTurn; split <;> rfl
@[simp] theorem consumeTurn_sw : (consumeTurn s).sw = s.sw := by
  unfold consumeTurn; split <;> rfl
@[simp] theorem consumeTurn_clkEn : (consumeTurn s).clkEn = s.clkEn := by
  unfold consumeTurn; split <;> rfl
@[simp] theorem consumeTurn_pend : (consumeTurn s).pend = s.pend := by
  unfold consumeTurn; split <;> rfl
@[simp] theorem consumeTurn_done : (consumeTurn s).done = s.done := by
  unfold consumeTurn; split <;> rfl
@[simp] theorem consumeTurn_frame : (consumeTurn s).frame = s.frame := by
  unfold consumeTurn; split <;> rfl
@[simp] theorem consumeTurn_txq : (consumeTurn s).txq = s.txq := by
  unfold consumeTurn; split <;> rfl
@[simp] theorem consumeTurn_trace : (consumeTurn s).trace = s.trace := by
  unfold consumeTurn; split <;> rfl
@[simp] theorem consumeTurn_statuses : (consumeTurn s).statuses = s.statuses := by
  unfold consumeTurn; split <;> rfl
@[simp] theorem consumeTurn_input : (consumeTurn s).input = s.input := by
  unfold consumeTurn; split <;> rfl
@[simp] theorem consumeTurn_sched : (consumeTurn s).sched = s.sched.tail := by
  unfold consumeTurn; split <;> simp_all

theorem consumeTurn_cons {t : Turn} {rest : List Turn} (h : s.sched = t :: rest) :
    consumeTurn s = { s with sched := rest } := by
  simp [consumeTurn, h]

theorem nextTurn_cons {t : Turn} {rest : List Turn} (h : s.sched = t :: rest) : nextTurn s = t := by
  simp [nextTurn, h]

@[simp] theorem resetWith_cfg (c : Config) : (State.resetWith c).cfg = c := rfl
@[simp] theorem resetWith_sw (c : Config) : (State.resetWith c).sw = Vector.replicate 32 c.swReset := rfl
@[simp] theorem resetWith_clkEn (c : Config) : (State.resetWith c).clkEn = false := rfl
@[simp] theorem resetWith_pend (c : Config) : (State.resetWith c).pend = false := rfl
@[simp] theorem resetWith_done (c : Config) : (State.resetWith c).done = false := rfl
@[simp] theorem resetWith_frame (c : Config) : (State.resetWith c).frame = c.frameReset := rfl
@[simp] theorem resetWith_txq (c : Config) : (State.resetWith c).txq = [] := rfl
@[simp] theorem resetWith_trace (c : Config) : (State.resetWith c).trace = [] := rfl
@[simp] theorem resetWith_statuses (c : Config) : (State.resetWith c).statuses = [] := rfl
@[simp] theorem resetWith_input (c : Config) : (State.resetWith c).input = [] := rfl
@[simp] theorem resetWith_sched (c : Config) : (State.resetWith c).sched = [] := rfl

end Sys2Proof.Machine
end

