-- ==== Sys2Proof/Laws/Ops.lean ====
section
/-! SUPPORT. What each shared operation can do, said once: START_FRAME, the clock gate, the commands, and the agents' turns. -/

namespace Sys2Proof.Machine

/-! ## Parameters -/

@[simp] theorem Config.maxTokens_eq : Config.maxTokens = 12 := rfl
@[simp] theorem Config.lowWater_eq : Config.lowWater = 4 := rfl
@[simp] theorem Config.frameBytes_eq : Config.frameBytes = 20 := rfl
@[simp] theorem Config.idleByte_eq : Config.idleByte = 0x00 := rfl

theorem Config.frame_fits (c : Config) : 20 ≤ c.txqCap := Nat.le_add_left _ _

theorem frame_toList_length (f : Frame) : f.toList.length = 20 := by simp

theorem uniformFrame_length (v : Switch) : (uniformFrame v).length = 20 := by simp [uniformFrame]

/-! ## START_FRAME and the commands that call it -/

/-- The state a frame-starting command leaves when the queue has room (R110, R121, R123). -/
def frameStarted (v : Switch) (s : State) : State :=
  { s with sw := Vector.replicate 32 v, pend := true, frame := pack (Vector.replicate 32 v),
           txq := s.txq ++ uniformFrame v, statuses := s.statuses ++ [.ok] }

@[simp] theorem frameStarted_cfg (v : Switch) (s : State) : (frameStarted v s).cfg = s.cfg := rfl
@[simp] theorem frameStarted_sw (v : Switch) (s : State) : (frameStarted v s).sw = Vector.replicate 32 v := rfl
@[simp] theorem frameStarted_clkEn (v : Switch) (s : State) : (frameStarted v s).clkEn = s.clkEn := rfl
@[simp] theorem frameStarted_pend (v : Switch) (s : State) : (frameStarted v s).pend = true := rfl
@[simp] theorem frameStarted_done (v : Switch) (s : State) : (frameStarted v s).done = s.done := rfl
@[simp] theorem frameStarted_frame (v : Switch) (s : State) : (frameStarted v s).frame = pack (Vector.replicate 32 v) := rfl
@[simp] theorem frameStarted_txq (v : Switch) (s : State) : (frameStarted v s).txq = s.txq ++ uniformFrame v := rfl
@[simp] theorem frameStarted_trace (v : Switch) (s : State) : (frameStarted v s).trace = s.trace := rfl
@[simp] theorem frameStarted_statuses (v : Switch) (s : State) : (frameStarted v s).statuses = s.statuses ++ [.ok] := rfl
@[simp] theorem frameStarted_input (v : Switch) (s : State) : (frameStarted v s).input = s.input := rfl
@[simp] theorem frameStarted_sched (v : Switch) (s : State) : (frameStarted v s).sched = s.sched := rfl
@[simp] theorem frameStarted_tick (v : Switch) (s : State) : (frameStarted v s).tick = s.tick := rfl

theorem writeAndTransmit_of_room {s : State} {v : Switch} (h : s.txq.length + 20 ≤ s.cfg.txqCap) :
    writeAndTransmit v s = .next (frameStarted v s) := by
  simp only [writeAndTransmit, startFrame]
  rw [if_neg (by simpa using h)]
  rfl

theorem writeAndTransmit_of_full {s : State} {v : Switch} (h : s.cfg.txqCap < s.txq.length + 20) :
    writeAndTransmit v s = .fault .txQueueOverflow := by
  simp only [writeAndTransmit, startFrame]
  rw [if_pos (by simpa using h)]
  rfl

theorem clockGate_on {s : State} {run : State → Result} (h : s.clkEn = true) :
    clockGate s run = .next (s.reply .clockActiveError) := by simp [clockGate, h]

theorem clockGate_off {s : State} {run : State → Result} (h : s.clkEn = false) : clockGate s run = run s := by
  simp [clockGate, h]

theorem selectOperand_cases (argv : List Token) :
    (argv.length ≠ 1 ∧ selectOperand argv = .rejected .argCountError) ∨
    (∃ t, argv = [t] ∧ t.length ≠ 1 ∧ selectOperand argv = .rejected .argFormatError) ∨
    (∃ c, argv = [[c]] ∧ selectOperand argv = .byte c) := by
  match argv with
  | [] => exact .inl ⟨by simp, rfl⟩
  | [[]] => exact .inr (.inl ⟨[], rfl, by simp, rfl⟩)
  | [[c]] => exact .inr (.inr ⟨c, rfl, rfl⟩)
  | [c :: d :: t] => exact .inr (.inl ⟨c :: d :: t, rfl, by simp, rfl⟩)
  | a :: b :: t => exact .inl ⟨by simp, by simp [selectOperand]⟩

/-- Only CLEAR and SELECT start frames. -/
theorem frameCommandValue_shape {i : Instr} {v : Switch} (h : frameCommandValue i = some v) :
    (∃ argv, i = .clear argv) ∨ ∃ argv, i = .select argv := by
  cases i <;> simp_all [frameCommandValue]

theorem frameCommandValue_ne_clock {i : Instr} {v : Switch} (h : frameCommandValue i = some v) (argv : List Token) :
    i ≠ .clock argv := by
  rintro rfl; simp [frameCommandValue] at h

theorem frameCommandValue_ne_stop {i : Instr} {v : Switch} (h : frameCommandValue i = some v) (argv : List Token) :
    i ≠ .stop argv := by
  rintro rfl; simp [frameCommandValue] at h

/-- Everything a frame-starting command can do. -/
theorem exec_frameCommand {i : Instr} {v : Switch} (hi : frameCommandValue i = some v) (s : State) :
    (s.clkEn = true ∧ exec i s = .next (s.reply .clockActiveError)) ∨
    (s.clkEn = false ∧ s.txq.length + 20 ≤ s.cfg.txqCap ∧ exec i s = .next (frameStarted v s)) ∨
    (s.clkEn = false ∧ s.cfg.txqCap < s.txq.length + 20 ∧ exec i s = .fault .txQueueOverflow) := by
  have hexec : exec i s = clockGate s (writeAndTransmit v) := by
    cases i with
    | clear argv => cases hi; rfl
    | select argv =>
      obtain ⟨h, -⟩ | ⟨t, rfl, ht, -⟩ | ⟨c, rfl, -⟩ := selectOperand_cases argv
      · match argv, h, hi with
        | [[c]], h, _ => simp at h
      · match t, ht, hi with
        | [c], ht, _ => simp at ht
      · cases hi; rfl
    | _ => simp [frameCommandValue] at hi
  cases hc : s.clkEn
  · rw [hexec, clockGate_off hc]
    by_cases hroom : s.txq.length + 20 ≤ s.cfg.txqCap
    · exact .inr (.inl ⟨rfl, hroom, writeAndTransmit_of_room hroom⟩)
    · exact .inr (.inr ⟨rfl, by omega, writeAndTransmit_of_full (by omega)⟩)
  · exact .inl ⟨rfl, by rw [hexec, clockGate_on hc]⟩

/-- Everything an instruction can do, by the outcome it answers. -/
inductive ExecOutcome (i : Instr) (s : State) : Result → Prop
  | statusOnly (st : Status) (hok : st = .ok → ∃ argv, i = .noop argv) (hclock : ∀ argv, i ≠ .clock argv)
      (hstop : ∀ argv, i ≠ .stop argv) : ExecOutcome i s (.next (s.reply st))
  | frame (v : Switch) (hv : frameCommandValue i = some v) (hclk : s.clkEn = false)
      (hroom : s.txq.length + 20 ≤ s.cfg.txqCap) : ExecOutcome i s (.next (frameStarted v s))
  | strobed (argv : List Token) (hi : i = .load argv) (hclk : s.clkEn = false) :
      ExecOutcome i s (.next ((s.emit .strobe).reply .ok))
  | clockSet (argv : List Token) (hi : i = .clock argv) : ExecOutcome i s (.next ((s.setClkEn true).reply .ok))
  | stopped (argv : List Token) (hi : i = .stop argv) :
      ExecOutcome i s (.next (((s.setClkEn false).clearTxq).reply .ok))
  | overflow (v : Switch) (hv : frameCommandValue i = some v) (hclk : s.clkEn = false)
      (hfull : s.cfg.txqCap < s.txq.length + 20) : ExecOutcome i s (.fault .txQueueOverflow)

theorem execOutcome_frameCommand {i : Instr} {v : Switch} (hv : frameCommandValue i = some v) (s : State)
    (hclock : ∀ argv, i ≠ .clock argv) (hstop : ∀ argv, i ≠ .stop argv) : ExecOutcome i s (exec i s) := by
  obtain ⟨-, h⟩ | ⟨hc, hr, h⟩ | ⟨hc, hr, h⟩ := exec_frameCommand hv s <;> rw [h]
  · exact .statusOnly _ (by simp) hclock hstop
  · exact .frame v hv hc hr
  · exact .overflow v hv hc hr

theorem exec_outcome (i : Instr) (s : State) : ExecOutcome i s (exec i s) := by
  cases i with
  | noop argv => exact .statusOnly _ (fun _ => ⟨argv, rfl⟩) (by simp) (by simp)
  | clear argv => exact execOutcome_frameCommand rfl s (by simp) (by simp)
  | write argv => exact .statusOnly _ (by simp) (by simp) (by simp)
  | select argv =>
    obtain ⟨-, h⟩ | ⟨t, rfl, -, h⟩ | ⟨c, rfl, -⟩ := selectOperand_cases argv
    · simp only [exec, execSelect, h]
      exact .statusOnly _ (by simp) (by simp) (by simp)
    · simp only [exec, execSelect, h]
      exact .statusOnly _ (by simp) (by simp) (by simp)
    · exact execOutcome_frameCommand rfl s (by simp) (by simp)
  | load argv =>
    simp only [exec, execLoad]
    cases hc : s.clkEn
    · rw [clockGate_off hc]; exact .strobed argv rfl hc
    · rw [clockGate_on hc]; exact .statusOnly _ (by simp) (by simp) (by simp)
  | clock argv => exact .clockSet argv rfl
  | stop argv => exact .stopped argv rfl
  | invalid argv => exact .statusOnly _ (by simp) (by simp) (by simp)
  | overlong => exact .statusOnly _ (by simp) (by simp) (by simp)

/-! ## The agents' turns -/

theorem serStep_nil {s : State} (h : s.txq = []) : serStep s = s := by simp [serStep, h]

theorem serStep_cons {s : State} {b : Byte} {rest : List Byte} (h : s.txq = b :: rest) :
    serStep s = { s with txq := rest, trace := s.trace ++ [.wireByte b], done := s.done || rest.isEmpty } := by
  cases rest <;> simp [serStep, h, shiftOut, State.setTxq, State.emit, State.setDone]

theorem chStep_idle {s : State} (h : s.done = false) : chStep s = s := by simp [chStep, h]

theorem chStep_unarmed {s : State} (h : s.done = true) (hp : s.pend = false) : chStep s = { s with done := false } := by
  simp [chStep, h, handleCompletion, hp, State.setDone]

theorem chStep_armed {s : State} (h : s.done = true) (hp : s.pend = true) :
    chStep s = { s with done := false, pend := false, trace := s.trace ++ [.strobe] } := by
  simp [chStep, h, handleCompletion, hp, State.setDone, State.setPend, State.emit]

theorem fillStep_enabled {s : State} (h : s.clkEn = true) (hq : s.txq.length < 4) :
    fillStep s = { s with txq := s.txq ++ [0x00] } := by
  simp [fillStep, fillEnabled, h, hq, State.pushBytes]

theorem fillStep_idle {s : State} (h : s.clkEn = false ∨ 4 ≤ s.txq.length) : fillStep s = s := by
  have : fillEnabled s = false := by
    rcases h with h | h <;> simp [fillEnabled, h]
  simp [fillStep, this]

theorem cuStep_nil {s : State} (h : s.input = []) : cuStep s = .next s := by simp [cuStep, h]

theorem cuStep_cons {s : State} {line : Line} {rest : List Line} (h : s.input = line :: rest) :
    cuStep s = exec (decode line) { s with input := rest } := by simp [cuStep, h, State.setInput]

/-! ## What the trace says of the bus and the strobe line -/

@[simp] theorem wireBytes_append (a b : List Event) : wireBytes (a ++ b) = wireBytes a ++ wireBytes b := by
  induction a with
  | nil => rfl
  | cons e a ih => cases e <;> simp [wireBytes, ih]

@[simp] theorem strobes_append (a b : List Event) : strobes (a ++ b) = strobes a + strobes b := by
  induction a with
  | nil => simp [strobes]
  | cons e a ih => cases e <;> simp [strobes, ih]; omega

@[simp] theorem wireBytes_wireByte (b : Byte) : wireBytes [.wireByte b] = [b] := rfl
@[simp] theorem wireBytes_strobe : wireBytes [.strobe] = [] := rfl
@[simp] theorem strobes_wireByte (b : Byte) : strobes [.wireByte b] = 0 := rfl
@[simp] theorem strobes_strobe : strobes [.strobe] = 1 := rfl

end Sys2Proof.Machine
end

