-- ==== Sys2Proof/Laws/PerInstr.lean ====
section
/-! SUPPORT. Facts of the instructions as syntax, one lemma for each constructor: an instruction's operands are those of its record. -/

namespace Sys2Proof.Laws

/-- The operands an instruction carries are the operands of its record, and the record is read back (30_encoding.md R62). -/
def RecordOperands.Statement (i : Instr) : Prop :=
  decodeRecord (encodeRecord i) = i ∧
  match encodeRecord i with
  | .parsed _ argv => argv = i.argv
  | .overlong => i = .overlong

theorem RecordOperands.noop (argv : List Token) : RecordOperands.Statement (.noop argv) := ⟨rfl, rfl⟩
theorem RecordOperands.clear (argv : List Token) : RecordOperands.Statement (.clear argv) := ⟨rfl, rfl⟩
theorem RecordOperands.write (argv : List Token) : RecordOperands.Statement (.write argv) := ⟨rfl, rfl⟩
theorem RecordOperands.select (argv : List Token) : RecordOperands.Statement (.select argv) := ⟨rfl, rfl⟩
theorem RecordOperands.load (argv : List Token) : RecordOperands.Statement (.load argv) := ⟨rfl, rfl⟩
theorem RecordOperands.clock (argv : List Token) : RecordOperands.Statement (.clock argv) := ⟨rfl, rfl⟩
theorem RecordOperands.stop (argv : List Token) : RecordOperands.Statement (.stop argv) := ⟨rfl, rfl⟩
theorem RecordOperands.invalid (argv : List Token) : RecordOperands.Statement (.invalid argv) := ⟨rfl, rfl⟩
theorem RecordOperands.overlong : RecordOperands.Statement .overlong := ⟨rfl, rfl⟩

end Sys2Proof.Laws
end

