-- ==== Sys2Proof/Laws/Step.lean ====
section
/-! SUPPORT. What one step can do, said once (`step_outcome`), and the same for runs. -/

namespace Sys2Proof.Machine

theorem step_eq (s : State) : step s = takeTurn (nextTurn s) (consumeTurn s) := rfl

theorem executing_cu {s : State} {line : Line} {rest : List Line} (ht : nextTurn s = .agent .cu)
    (hi : s.input = line :: rest) : executing s = some (decode line) := by simp [executing, ht, hi]

theorem executing_of_not_cu {s : State} (ht : nextTurn s ≠ .agent .cu) : executing s = none := by
  simp [executing, ht]

/-- A step executes an instruction exactly when it is CU's turn and there is a line. -/
theorem executing_eq_some {s : State} {i : Instr} (h : executing s = some i) :
    nextTurn s = .agent .cu ∧ ∃ line rest, s.input = line :: rest ∧ decode line = i := by
  unfold executing at h
  split at h
  next ht =>
    cases hi : s.input with
    | nil => simp [hi] at h
    | cons line rest => exact ⟨ht, line, rest, rfl, by simpa [hi] using h⟩
  · simp at h

/-- Everything a step can do, by the outcome it answers. -/
inductive StepOutcome (s : State) : Result → Prop
  | executed (line : Line) (rest : List Line) (ht : nextTurn s = .agent .cu) (hi : s.input = line :: rest)
      (hx : executing s = some (decode line)) (r : Result)
      (hr : ExecOutcome (decode line) { consumeTurn s with input := rest } r) : StepOutcome s r
  | idle (hx : executing s = none) : StepOutcome s (.next (consumeTurn s))
  | shifted (hx : executing s = none) (ht : nextTurn s = .agent .ser) (b : Byte) (rest : List Byte)
      (hq : s.txq = b :: rest) :
      StepOutcome s (.next { consumeTurn s with
        txq := rest, trace := s.trace ++ [.wireByte b], done := s.done || rest.isEmpty })
  | completed (hx : executing s = none) (ht : nextTurn s = .agent .ch) (hd : s.done = true) (hp : s.pend = false) :
      StepOutcome s (.next { consumeTurn s with done := false })
  | strobed (hx : executing s = none) (ht : nextTurn s = .agent .ch) (hd : s.done = true) (hp : s.pend = true) :
      StepOutcome s (.next { consumeTurn s with done := false, pend := false, trace := s.trace ++ [.strobe] })
  | filled (hx : executing s = none) (ht : nextTurn s = .agent .fill) (hc : s.clkEn = true) (hq : s.txq.length < 4) :
      StepOutcome s (.next { consumeTurn s with txq := s.txq ++ [0x00] })

/-- A step that executes a line is that instruction's effect on the state with the line and the turn taken. -/
theorem step_of_line {s : State} {line : Line} {rest : List Line} (ht : nextTurn s = .agent .cu)
    (hi : s.input = line :: rest) : step s = exec (decode line) { consumeTurn s with input := rest } := by
  rw [step_eq, ht]
  exact cuStep_cons (s := consumeTurn s) (by simpa using hi)

theorem step_outcome (s : State) : StepOutcome s (step s) := by
  match ht : nextTurn s with
  | .agent .cu =>
    match hi : s.input with
    | [] =>
      have hstep : step s = .next (consumeTurn s) := by
        rw [step_eq, ht]; exact cuStep_nil (s := consumeTurn s) (by simpa using hi)
      rw [hstep]
      exact .idle (by simp [executing, hi])
    | line :: rest =>
      rw [step_of_line ht hi]
      exact .executed line rest ht hi (executing_cu ht hi) _ (exec_outcome _ _)
  | .agent .fill =>
    have hx := executing_of_not_cu (s := s) (by simp [ht])
    rw [step_eq, ht]
    by_cases h : s.clkEn = true ∧ s.txq.length < 4
    · simp only [takeTurn]
      rw [fillStep_enabled (by simpa using h.1) (by simpa using h.2), consumeTurn_txq]
      exact .filled hx ht h.1 h.2
    · simp only [takeTurn]
      rw [fillStep_idle (by cases hc : s.clkEn <;> simp_all)]
      exact .idle hx
  | .agent .ser =>
    have hx := executing_of_not_cu (s := s) (by simp [ht])
    rw [step_eq, ht]
    simp only [takeTurn]
    match hq : s.txq with
    | [] => rw [serStep_nil (by simpa using hq)]; exact .idle hx
    | b :: rest =>
      rw [serStep_cons (b := b) (rest := rest) (by simpa using hq), consumeTurn_trace, consumeTurn_done]
      exact .shifted hx ht b rest hq
  | .agent .ch =>
    have hx := executing_of_not_cu (s := s) (by simp [ht])
    rw [step_eq, ht]
    simp only [takeTurn]
    cases hd : s.done
    · rw [chStep_idle (by simpa using hd)]; exact .idle hx
    · cases hp : s.pend
      · rw [chStep_unarmed (by simpa using hd) (by simpa using hp)]; exact .completed hx ht hd hp
      · rw [chStep_armed (by simpa using hd) (by simpa using hp), consumeTurn_trace]; exact .strobed hx ht hd hp
  | .reconnect =>
    have hx := executing_of_not_cu (s := s) (by simp [ht])
    rw [step_eq, ht]
    exact .idle hx

theorem step_next {s t : State} (h : step s = .next t) : StepOutcome s (.next t) := h ▸ step_outcome s

/-! ## Runs -/

@[simp] theorem run_zero (s : State) : runSteps 0 s = .next s := rfl

theorem run_succ_of_fault (k : Nat) {s : State} {r : Fault} (h : step s = .fault r) :
    runSteps (k + 1) s = .fault r := by simp [runSteps, h]

theorem run_succ_of_refused (k : Nat) {s : State} {r : Refusal} (h : step s = .refused r) :
    runSteps (k + 1) s = .refused r := by simp [runSteps, h]

theorem run_succ (k : Nat) {s t : State} (h : step s = .next t) : runSteps (k + 1) s = runSteps k t := by
  simp [runSteps, h]

/-- Runs of this machine are the host's runs of its core. -/
theorem runSteps_eq_core_run : ∀ (k : Nat) (s : State), runSteps k s = core.run k s
  | 0, _ => rfl
  | k + 1, s => by
    have ih := runSteps_eq_core_run k
    match h : step s with
    | .next t =>
      have h' : core.step s = .next t := h
      simp only [runSteps, h, Host.Core.run, h', ih t]; rfl
    | .fault r =>
      have h' : core.step s = .fault r := h
      simp only [runSteps, h, Host.Core.run, h']; rfl
    | .refused r =>
      have h' : core.step s = .refused r := h
      simp only [runSteps, h, Host.Core.run, h']; rfl

theorem run_succ_inv {k : Nat} {s u : State} (h : runSteps (k + 1) s = .next u) :
    ∃ t, step s = .next t ∧ runSteps k t = .next u := by
  match hs : step s with
  | .next t => exact ⟨t, rfl, by rwa [run_succ k hs] at h⟩
  | .fault r => rw [run_succ_of_fault k hs] at h; cases h
  | .refused r => rw [run_succ_of_refused k hs] at h; cases h

/-- Runs compose. -/
theorem run_add {k : Nat} : ∀ {s t : State} (j : Nat), runSteps k s = .next t → runSteps (k + j) s = runSteps j t := by
  induction k with
  | zero => intro s t j h; cases h; simp
  | succ k ih =>
    intro s t j h
    obtain ⟨m, hm, hk⟩ := run_succ_inv h
    rw [Nat.succ_add, run_succ _ hm, ih j hk]

/-- An invariant of steps is an invariant of runs. -/
theorem run_invariant {P : State → Prop} (hstep : ∀ s t, P s → step s = .next t → P t) {k : Nat} :
    ∀ {s t : State}, P s → runSteps k s = .next t → P t := by
  induction k with
  | zero => intro s t hs h; cases h; exact hs
  | succ k ih =>
    intro s t hs h
    obtain ⟨m, hm, hk⟩ := run_succ_inv h
    exact ih (hstep s m hs hm) hk

end Sys2Proof.Machine
end

