-- ==== Sys2Proof/Laws/Runs.lean ====
section
/-! SUPPORT. Runs said once: a stretch of serializer turns, and what a step can do while the host is silent and the clock is off. -/

namespace Sys2Proof.Machine

/-- A step whose turn the schedule gives. -/
theorem step_of_sched {s : State} {t : Turn} {rest : List Turn} (h : s.sched = t :: rest) :
    step s = takeTurn t { s with sched := rest } := by
  rw [step_eq, nextTurn_cons s h, consumeTurn_cons s h]

theorem step_ser_of_sched {s : State} {turns : List Turn} {b : Byte} {q : List Byte}
    (h : s.sched = .agent .ser :: turns) (hq : s.txq = b :: q) :
    step s = .next { s with sched := turns, txq := q, trace := s.trace ++ [.wireByte b], done := s.done || q.isEmpty } := by
  rw [step_of_sched h]
  exact congrArg Host.Outcome.next (serStep_cons (s := { s with sched := turns }) hq)

/-- As many serializer turns as there are bytes before `q` shift those bytes out in order; `DONE` is raised when nothing is left. -/
theorem run_serTurns {q : List Byte} {turns : List Turn} :
    ∀ {bs : List Byte} {s : State}, s.sched = serTurns bs.length ++ turns → s.txq = bs ++ q →
      runSteps bs.length s = .next { s with
        sched := turns, txq := q, trace := s.trace ++ shiftedOut bs,
        done := s.done || (!bs.isEmpty && q.isEmpty) }
  | [], s, hs, hq => by
    simp only [serTurns, List.length_nil, List.replicate_zero, List.nil_append] at hs hq
    simp [shiftedOut, ← hs, ← hq]
  | b :: bs, s, hs, hq => by
    rw [List.length_cons, serTurns, List.replicate_succ, List.cons_append] at hs
    rw [List.length_cons, run_succ _ (step_ser_of_sched hs hq), run_serTurns rfl rfl]
    cases bs <;> cases q <;> simp [shiftedOut]

/-- A frame-starting line on CU's turn, with the clock off and room in the queue. -/
theorem step_frame_of_sched {s : State} {line : Line} {rest : List Line} {v : Switch} {turns : List Turn}
    (h : s.sched = .agent .cu :: turns) (hi : s.input = line :: rest) (hv : frameCommandValue (decode line) = some v)
    (hc : s.clkEn = false) (hroom : s.txq.length + 20 ≤ s.cfg.txqCap) :
    step s = .next (frameStarted v { s with sched := turns, input := rest }) := by
  rw [step_of_line (nextTurn_cons s h) hi, consumeTurn_cons s h]
  obtain ⟨h', -⟩ | ⟨-, -, h'⟩ | ⟨-, h', -⟩ := exec_frameCommand hv { s with sched := turns, input := rest }
  · simp [hc] at h'
  · exact h'
  · simp at h'; omega

/-- The completion handler's turn on an armed strobe. -/
theorem step_ch_armed_of_sched {s : State} {turns : List Turn} (h : s.sched = .agent .ch :: turns)
    (hd : s.done = true) (hp : s.pend = true) :
    step s = .next { s with sched := turns, done := false, pend := false, trace := s.trace ++ [.strobe] } := by
  rw [step_of_sched h]
  exact congrArg Host.Outcome.next (chStep_armed (s := { s with sched := turns }) hd hp)

theorem step_ch_unarmed_of_sched {s : State} {turns : List Turn} (h : s.sched = .agent .ch :: turns)
    (hd : s.done = true) (hp : s.pend = false) :
    step s = .next { s with sched := turns, done := false } := by
  rw [step_of_sched h]
  exact congrArg Host.Outcome.next (chStep_unarmed (s := { s with sched := turns }) hd hp)

theorem step_ch_idle_of_sched {s : State} {turns : List Turn} (h : s.sched = .agent .ch :: turns)
    (hd : s.done = false) : step s = .next { s with sched := turns } := by
  rw [step_of_sched h]
  exact congrArg Host.Outcome.next (chStep_idle (s := { s with sched := turns }) hd)

/-! ## A silent host and a stopped clock -/

/-- The host presents nothing more and the clock is off: only SER and CH can change the block. -/
def Silent (s : State) : Prop := s.input = [] ∧ s.clkEn = false

/-- Everything a step can do in a silent state. -/
inductive SilentStep (s : State) : State → Prop
  | idle (hd : nextTurn s = .agent .ser → s.txq = []) (hch : nextTurn s = .agent .ch → s.done = false) :
      SilentStep s (consumeTurn s)
  | shifted (ht : nextTurn s = .agent .ser) (b : Byte) (rest : List Byte) (hq : s.txq = b :: rest) :
      SilentStep s { consumeTurn s with
        txq := rest, trace := s.trace ++ [.wireByte b], done := s.done || rest.isEmpty }
  | completed (ht : nextTurn s = .agent .ch) (hd : s.done = true) (hp : s.pend = false) :
      SilentStep s { consumeTurn s with done := false }
  | strobed (ht : nextTurn s = .agent .ch) (hd : s.done = true) (hp : s.pend = true) :
      SilentStep s { consumeTurn s with done := false, pend := false, trace := s.trace ++ [.strobe] }

theorem silent_step {s : State} (hs : Silent s) : ∃ t, step s = .next t ∧ SilentStep s t := by
  have hidle : nextTurn s ≠ .agent .ser → nextTurn s ≠ .agent .ch → SilentStep s (consumeTurn s) :=
    fun h1 h2 => .idle (fun h => absurd h h1) (fun h => absurd h h2)
  rw [step_eq]
  match ht : nextTurn s with
  | .agent .cu =>
    exact ⟨_, cuStep_nil (by simpa using hs.1), hidle (by simp [ht]) (by simp [ht])⟩
  | .agent .fill =>
    refine ⟨_, ?_, hidle (by simp [ht]) (by simp [ht])⟩
    exact congrArg Host.Outcome.next (fillStep_idle (by simp [hs.2]))
  | .reconnect => exact ⟨_, rfl, hidle (by simp [ht]) (by simp [ht])⟩
  | .agent .ser =>
    match hq : s.txq with
    | [] =>
      exact ⟨_, congrArg Host.Outcome.next (serStep_nil (by simpa using hq)), .idle (fun _ => hq) (by simp [ht])⟩
    | b :: rest =>
      refine ⟨_, ?_, .shifted ht b rest hq⟩
      simp only [takeTurn]
      rw [serStep_cons (b := b) (rest := rest) (by simpa using hq), consumeTurn_trace, consumeTurn_done]
  | .agent .ch =>
    cases hd : s.done
    · exact ⟨_, congrArg Host.Outcome.next (chStep_idle (by simpa using hd)), .idle (by simp [ht]) (fun _ => hd)⟩
    · cases hp : s.pend
      · exact ⟨_, congrArg Host.Outcome.next (chStep_unarmed (by simpa using hd) (by simpa using hp)), .completed ht hd hp⟩
      · refine ⟨_, ?_, .strobed ht hd hp⟩
        simp only [takeTurn]
        rw [chStep_armed (by simpa using hd) (by simpa using hp), consumeTurn_trace]

/-- What silent steps keep: the host stays silent, the bytes shifted out followed by the queue stay the same, and so does the number
of strobes fired and armed. -/
structure SilentFrom (s t : State) : Prop where
  silent : Silent t
  bytes : wireBytes t.trace ++ t.txq = wireBytes s.trace ++ s.txq
  strobes : strobes t.trace + (if t.pend then 1 else 0) = strobes s.trace + (if s.pend then 1 else 0)
  armed : ArmedStrobeHasCompletion t

theorem SilentFrom.refl {s : State} (hs : Silent s) (ha : ArmedStrobeHasCompletion s) : SilentFrom s s :=
  ⟨hs, rfl, rfl, ha⟩

theorem SilentFrom.step {s t u : State} (h : SilentFrom s t) (hu : SilentStep t u) : SilentFrom s u := by
  obtain ⟨⟨hi, hc⟩, hb, hst, ha⟩ := h
  cases hu with
  | idle => exact ⟨⟨by simpa using hi, by simpa using hc⟩, by simpa using hb, by simpa using hst,
      by simpa [ArmedStrobeHasCompletion] using ha⟩
  | shifted ht b rest hq =>
    refine ⟨⟨by simpa using hi, by simpa using hc⟩, by simpa [hq] using hb, by simpa using hst, ?_⟩
    intro _
    cases rest <;> simp
  | completed ht hd hp => exact ⟨⟨by simpa using hi, by simpa using hc⟩, by simpa using hb, by simpa using hst,
      by simp [ArmedStrobeHasCompletion, hp]⟩
  | strobed ht hd hp =>
    refine ⟨⟨by simpa using hi, by simpa using hc⟩, by simpa using hb, ?_, by simp [ArmedStrobeHasCompletion]⟩
    simpa [hp] using hst

end Sys2Proof.Machine
end

