-- ==== Sys2Proof/Tests/Slice0.lean ====
section
/-! SUPPORT. The model's own tests (expected values from 95_test_vectors.md, 30_encoding.md and hand calculation from the rules), and, for every obligation with hypotheses, a state and operands that meet them. -/

namespace Sys2Proof.Tests

open Sys2Proof Sys2Proof.Machine

/-! ## Small states -/

/-- A block with room for 64 bytes. -/
def cfg64 : Config where
  txqSpare := 44
  wireBitOrder := .msbFirst
  frameReset := Vector.replicate 20 0xA5

/-- That block after reset, the matrix all 0. -/
def base : State := State.resetWith cfg64

/-- The same with the clock flag set. -/
def clocking : State := { base with clkEn := true }

/-- A state that a turn `t` comes next in. -/
def before (t : Turn) (s : State) : State := { s with sched := [t] }

/-- A state in which the host's next line is executed next. -/
def hosting (line : Line) (s : State) : State := { s with input := [line], sched := [.agent .cu] }

/-- The next state of a step, where it answers one. -/
def after (r : Result) : Option State :=
  match r with
  | .next t => some t
  | .fault _ => none
  | .refused _ => none

def lineClear : Line := [0x43, 0x4C, 0x45, 0x41, 0x52]
def lineSelectA : Line := [0x53, 0x45, 0x4C, 0x45, 0x43, 0x54, 0x20, 0x41]
def lineClock : Line := [0x43, 0x4C, 0x4F, 0x43, 0x4B]
def lineStop : Line := [0x53, 0x54, 0x4F, 0x50]
def lineLoad : Line := [0x4C, 0x4F, 0x41, 0x44]

/-! ## Ill-formed terms, one for each check of WellFormed -/

theorem smoke_empty_token : WellFormed (.select [[]]) = false := by decide
theorem smoke_space_in_token : WellFormed (.write [[0x30, 0x20, 0x78]]) = false := by decide
theorem smoke_twelve_operands : WellFormed (.noop (List.replicate 12 [0x31])) = false := by decide
theorem smoke_eleven_operands : WellFormed (.noop (List.replicate 11 [0x31])) = true := by decide

/-! ## Decoding: lines and record words written out from the spec -/

/-- "NOOP 1": 95_test_vectors.md section 2.5, R74. -/
theorem decode_noop : decode [0x4E, 0x4F, 0x4F, 0x50, 0x20, 0x31] = .noop [[0x31]] := by decide
/-- "clear" (section 2.5). -/
theorem decode_clear : decode [0x63, 0x6C, 0x65, 0x61, 0x72] = .clear [] := by decide
/-- "WRITE 0x1F" (P3). -/
theorem decode_write : decode [0x57, 0x52, 0x49, 0x54, 0x45, 0x20, 0x30, 0x78, 0x31, 0x46] = .write [[0x30, 0x78, 0x31, 0x46]] := by
  decide
/-- "  SeLeCt   b  " (section 2.5). -/
theorem decode_select : decode [0x20, 0x20, 0x53, 0x65, 0x4C, 0x65, 0x43, 0x74, 0x20, 0x20, 0x20, 0x62, 0x20, 0x20] = .select [[0x62]] := by
  decide
/-- "SELECT\tA" (section 2.5). -/
theorem decode_select_tab : decode [0x53, 0x45, 0x4C, 0x45, 0x43, 0x54, 0x09, 0x41] = .select [[0x41]] := by decide
theorem decode_load : decode lineLoad = .load [] := by decide
theorem decode_clock : decode lineClock = .clock [] := by decide
theorem decode_stop : decode lineStop = .stop [] := by decide
/-- "SEL A" and "SELECTA" name no command (section 2.5). -/
theorem decode_invalid : decode [0x53, 0x45, 0x4C, 0x20, 0x41] = .invalid [[0x41]] ∧
    decode [0x53, 0x45, 0x4C, 0x45, 0x43, 0x54, 0x41] = .invalid [] := by decide
/-- The empty line and a line of spaces (section 2.5). -/
theorem decode_empty : decode [] = .invalid [] ∧ decode [0x20, 0x20, 0x20] = .invalid [] := by decide
/-- "FOO 1 2 3 4 5 6 7 8 9 10 11 12": 13 tokens (section 2.5). -/
theorem decode_overlong : decode [0x46, 0x4F, 0x4F, 0x20, 0x31, 0x20, 0x32, 0x20, 0x33, 0x20, 0x34, 0x20, 0x35, 0x20, 0x36, 0x20, 0x37,
    0x20, 0x38, 0x20, 0x39, 0x20, 0x31, 0x30, 0x20, 0x31, 0x31, 0x20, 0x31, 0x32] = .overlong := by decide
/-- The bytes around `a`..`z` (R64). -/
theorem foldCase_boundaries : [foldCase 0x60, foldCase 0x61, foldCase 0x7A, foldCase 0x7B] = [0x60, 0x41, 0x5A, 0x7B] := by decide
/-- The bytes around the whitespace set (R72). -/
theorem isSpace_boundaries : ([0x08, 0x09, 0x0D, 0x0E, 0x1F, 0x20, 0x21] : List Byte).map isSpace =
    [false, true, true, false, false, true, false] := by decide
/-- The record words of spec/opcode_table.json, and the row that has none. -/
theorem decode_table_words : (List.range 8).map (decodeTableWord 8) =
    [some (.noop []), some (.clear []), some (.write []), some (.select []), some (.load []), some (.clock []),
     some (.stop []), some (.invalid [])] ∧ decodeTableWord 0 0 = some .overlong := by decide
/-- A line presented for a word decodes to the word's instruction. -/
theorem decode_lineOfTableWord : (List.range 8).all (fun w => some (decode (lineOfTableWord 8 w)) == decodeTableWord 8 w) = true ∧
    decode (lineOfTableWord 0 0) = .overlong := by decide

/-! ## The codec -/

/-- V1, the ramp. -/
theorem pack_ramp : (pack (Vector.ofFn fun n => BitVec.ofNat 5 n.val)).toList =
    [0xBE, 0xEF, 0x7C, 0xEB, 0x8C, 0xAF, 0xAD, 0x74, 0xCA, 0x08, 0xCF, 0x35, 0xB6, 0x54, 0x42, 0xC7, 0x14, 0x32, 0x44, 0x00] := by decide
/-- V4, checkerboard CB2. -/
theorem pack_checkerboard : (pack (Vector.ofFn fun n => if n.val % 2 = 0 then 21 else 10)).toList =
    [0x54, 0x55, 0x55, 0x55, 0x55, 0x55, 0x55, 0x55, 0x55, 0x55, 0xAB, 0xAA, 0xAA, 0xAA, 0xAA, 0xAA, 0xAA, 0xAA, 0xAA, 0xAA] := by decide
/-- V10: `SW[16]` spans bytes 9 and 10. -/
theorem pack_switch16 : (pack (Vector.ofFn fun n => if n.val = 16 then 31 else 0)).toList =
    [0, 0, 0, 0, 0, 0, 0, 0, 0, 0xF0, 0x01, 0, 0, 0, 0, 0, 0, 0, 0, 0] := by decide
/-- V13 and V14: the collision at frame bit 80. -/
theorem pack_switch15E : (pack (Vector.ofFn fun n => if n.val = 15 then 1 else 0)).toList =
    [0, 0, 0, 0, 0, 0, 0, 0, 0, 0, 0x01, 0, 0, 0, 0, 0, 0, 0, 0, 0] := by decide
theorem pack_switch16A : (pack (Vector.ofFn fun n => if n.val = 16 then 16 else 0)).toList =
    [0, 0, 0, 0, 0, 0, 0, 0, 0, 0, 0x01, 0, 0, 0, 0, 0, 0, 0, 0, 0] := by decide
/-- The accumulators of the ramp (section 2.3). -/
theorem accumulators_ramp : (List.finRange 4).map (accumulator (Vector.ofFn fun n => BitVec.ofNat 5 n.val)) =
    [0x018CEB7CEFBE, 0x0108CA74ADAE, 0x004254B635CF, 0x0000443214C7] := by decide
/-- MASK (section 2.4). -/
theorem mask_examples : [mask 0x61, mask 0x42, mask 0x63, mask 0x44, mask 0x65, mask 0x46, mask 0x31, mask 0xC1] =
    [16, 8, 4, 2, 1, 0, 0, 0] := by decide

/-! ## Commands (section 2.6) -/

/-- X2. -/
theorem test_noop : (after (exec (.noop []) clocking)).map (fun t => (t.statuses, t.clkEn)) = some ([.ok], true) := by decide
/-- X3, from the machine's own reset state through the fetch of the table's word. -/
theorem test_clear : (after (step (State.reset.withFetchWord 8 1))).map (fun t => (t.txq, t.pend, t.statuses)) =
    some (List.replicate 20 0, true, [.ok]) := by decide
/-- X4. -/
theorem test_clear_gated : (after (exec (.clear []) { clocking with sw := Vector.replicate 32 8 })).map (fun t => (t.sw, t.txq, t.statuses)) =
    some (Vector.replicate 32 8, [], [.clockActiveError]) := by decide
/-- X7. -/
theorem test_write : (after (exec (.write [[0x30, 0x78, 0x31, 0x46]]) clocking)).map (fun t => (t.statuses, t.txq)) =
    some ([.notImplemented], []) := by decide
/-- X8. -/
theorem test_select : (after (exec (.select [[0x41]]) base)).map (fun t => (t.sw, t.txq)) =
    some (Vector.replicate 32 16, [0x20, 0x84, 0x10, 0x42, 0x08, 0x21, 0x84, 0x10, 0x42, 0x08, 0x11, 0x42, 0x08, 0x21, 0x84, 0x10,
      0x42, 0x08, 0x21, 0x84]) := by decide
/-- X15 and X16: the operand checks come before the clock gate. -/
theorem test_select_priority : (after (exec (.select [[0x41, 0x42]]) clocking)).map State.statuses = some [.argFormatError] ∧
    (after (exec (.select []) clocking)).map State.statuses = some [.argCountError] := by decide
/-- X19. -/
theorem test_load : (after (exec (.load []) { base with pend := true, txq := List.replicate 12 1 })).map (fun t => (t.trace, t.pend, t.txq.length)) =
    some ([.strobe], true, 12) := by decide
/-- X18. -/
theorem test_load_gated : (after (exec (.load []) clocking)).map (fun t => (t.trace, t.statuses)) = some ([], [.clockActiveError]) := by
  decide
/-- X20. -/
theorem test_clock : (after (exec (.clock []) base)).map (fun t => (t.clkEn, t.txq)) = some (true, []) := by decide
/-- X24. -/
theorem test_stop : (after (exec (.stop []) { base with pend := true, txq := List.replicate 15 7 })).map (fun t => (t.txq, t.pend, t.done, t.trace)) =
    some ([], true, false, []) := by decide
/-- X25 and X26. -/
theorem test_invalid : (after (exec (.invalid []) clocking)).map State.statuses = some [.invalidCommand] := by decide
theorem test_overlong : (after (exec .overlong clocking)).map State.statuses = some [.tooManyArgs] := by decide
/-- X27 and X28: depth `TXQ_CAP` - 19 faults, depth `TXQ_CAP` - 20 does not. -/
theorem test_overflow : after (exec (.clear []) { base with txq := List.replicate 45 0 }) = none := by decide
theorem test_full : (after (exec (.clear []) { base with txq := List.replicate 44 0 })).map (fun t => t.txq.length) = some 64 := by decide

/-! ## The other agents (section 2.7) -/

/-- S1 and S10. -/
theorem test_ser_last : (after (step (before (.agent .ser) { base with txq := [0x20], done := true }))).map (fun t => (t.txq, t.done, t.trace)) =
    some ([], true, [.wireByte 0x20]) := by decide
/-- S2. -/
theorem test_ser_more : (after (step (before (.agent .ser) { base with txq := [0x20, 0x84] }))).map (fun t => (t.txq, t.done)) =
    some ([0x84], false) := by decide
/-- S4. -/
theorem test_ch_armed : (after (step (before (.agent .ch) { base with done := true, pend := true }))).map (fun t => (t.done, t.pend, t.trace)) =
    some (false, false, [.strobe]) := by decide
/-- S7 and S8. -/
theorem test_fill : (after (step (before (.agent .fill) { clocking with txq := [1, 2, 3] }))).map State.txq = some [1, 2, 3, 0] := by decide
theorem test_fill_full : (after (step (before (.agent .fill) { clocking with txq := [1, 2, 3, 4] }))).map State.txq = some [1, 2, 3, 4] := by
  decide
/-- R151, both orders, of the byte 0x20. -/
theorem test_wireBits : wireBits .msbFirst 0x20 = [false, false, true, false, false, false, false, false] ∧
    wireBits .lsbFirst 0x20 = [false, false, false, false, false, true, false, false] := by decide

/-! ## Every table row runs as the first instruction after reset -/

theorem every_row_steps : (List.range 8).all (fun w => (after (step (State.reset.withFetchWord 8 w))).isSome) = true ∧
    (after (step (State.reset.withFetchWord 0 0))).isSome = true := by decide

/-! ## Witnesses: states and operands that meet the hypotheses of each obligation, clause by clause -/

theorem witness_clear_gated : clocking.clkEn = true := by decide
theorem witness_frame_room : base.clkEn = false ∧ base.txq.length + 20 ≤ base.cfg.txqCap := by decide
/-- The boundary: the frame just fits. -/
theorem witness_frame_room_boundary : let s : State := { base with txq := List.replicate 44 0 }
    s.clkEn = false ∧ s.txq.length + 20 ≤ s.cfg.txqCap := by decide
/-- The boundary: one byte too many. -/
theorem witness_frame_overflow : let s : State := { base with txq := List.replicate 45 0 }
    s.clkEn = false ∧ s.cfg.txqCap < s.txq.length + 20 := by decide
theorem witness_select_argCount : ([] : List Token).length ≠ 1 ∧ ([[0x41], [0x42]] : List Token).length ≠ 1 := by decide
theorem witness_select_argFormat : ∃ t : Token, ([[0x41, 0x42]] : List Token) = [t] ∧ t.length ≠ 1 := ⟨[0x41, 0x42], by decide⟩
theorem witness_unrecognised : (0x46 : Byte) ∉ ([0x41, 0x42, 0x43, 0x44, 0x45, 0x61, 0x62, 0x63, 0x64, 0x65] : List Byte) := by decide
theorem witness_invalid_token : tokenize [0x46, 0x4F, 0x4F, 0x20, 0x31] = [[0x46, 0x4F, 0x4F], [0x31]] ∧
    ∀ row ∈ commandTable, row.1 ≠ ([0x46, 0x4F, 0x4F] : Token).map foldCase := by decide
theorem witness_invalid_empty : tokenize [0x20] = [] := by decide
theorem witness_overlong : 12 < (tokenize (encode .overlong)).length := by decide
/-- The boundary on the other side: 12 tokens are not too many. -/
theorem witness_not_overlong : (tokenize (encode (.noop (List.replicate 11 [0x31])))).length = 12 := by decide
theorem witness_nonOk : ∃ t, exec (.write []) base = .next t ∧ t.statuses = base.statuses ++ [.notImplemented] := ⟨_, rfl, rfl⟩
theorem witness_okPath : ∃ t, exec (.clock []) base = .next t ∧ t.statuses = base.statuses ++ [.ok] := ⟨_, rfl, rfl⟩

theorem witness_cu_line : nextTurn (hosting lineClear base) = .agent .cu ∧ (hosting lineClear base).input = [lineClear] := by decide
theorem witness_sched : (before (.agent .ch) base).sched = [.agent .ch] ∧ base.sched = [] := by decide
theorem witness_cu_waits : nextTurn (before (.agent .cu) base) = .agent .cu ∧ (before (.agent .cu) base).input = [] := by decide
theorem witness_reconnect : nextTurn (before .reconnect base) = .reconnect := by decide
theorem witness_ser_empty : nextTurn (before (.agent .ser) base) = .agent .ser ∧ base.txq = [] := by decide
theorem witness_ser_last : let s := before (.agent .ser) { base with txq := [7] }
    nextTurn s = .agent .ser ∧ s.txq = [7] := by decide
theorem witness_ser_more : let s := before (.agent .ser) { base with txq := [7, 8] }
    nextTurn s = .agent .ser ∧ s.txq = [7, 8] := by decide
theorem witness_ch_idle : nextTurn (before (.agent .ch) base) = .agent .ch ∧ base.done = false := by decide
theorem witness_ch_unarmed : let s := before (.agent .ch) { base with done := true }
    nextTurn s = .agent .ch ∧ s.done = true ∧ s.pend = false := by decide
theorem witness_ch_armed : let s := before (.agent .ch) { base with done := true, pend := true }
    nextTurn s = .agent .ch ∧ s.done = true ∧ s.pend = true := by decide
theorem witness_fill_enabled : let s := before (.agent .fill) { clocking with txq := [0, 0, 0] }
    nextTurn s = .agent .fill ∧ s.clkEn = true ∧ s.txq.length < 4 := by decide
theorem witness_fill_full : let s := before (.agent .fill) { clocking with txq := [0, 0, 0, 0] }
    nextTurn s = .agent .fill ∧ 4 ≤ s.txq.length := by decide
theorem witness_fill_clock_off : nextTurn (before (.agent .fill) base) = .agent .fill ∧ base.clkEn = false := by decide
theorem witness_step_fault : let s := hosting lineClear { base with txq := List.replicate 45 0 }
    s.clkEn = false ∧ s.cfg.txqCap < s.txq.length + 20 ∧ executing s = some (.clear []) ∧ frameCommandValue (.clear []) = some 0 := by decide

/-- A step that writes the matrix and the frame and arms the strobe. -/
theorem witness_matrix_written : ∃ t, step (hosting lineSelectA base) = .next t ∧ t.sw ≠ (hosting lineSelectA base).sw ∧
    (hosting lineSelectA base).pend = false ∧ t.pend = true := ⟨_, rfl, by decide, rfl, rfl⟩
theorem witness_clock_written : ∃ t, step (hosting lineClock base) = .next t ∧ executing (hosting lineClock base) = some (.clock []) :=
  ⟨_, rfl, by decide⟩
theorem witness_clock_cleared : ∃ t, step (hosting lineStop clocking) = .next t ∧ executing (hosting lineStop clocking) = some (.stop []) :=
  ⟨_, rfl, by decide⟩
theorem witness_clock_kept : ∃ t, step (before (.agent .ch) base) = .next t ∧ executing (before (.agent .ch) base) = none := ⟨_, rfl, by decide⟩
theorem witness_pending_cleared : let s := before (.agent .ch) { base with done := true, pend := true }
    ∃ t, step s = .next t ∧ s.pend = true ∧ t.pend = false ∧ s.done = true ∧ t.done = false := ⟨_, rfl, rfl, rfl, rfl, rfl⟩
theorem witness_done_raised : let s := before (.agent .ser) { base with txq := [7] }
    ∃ t, step s = .next t ∧ s.done = false ∧ t.done = true := ⟨_, rfl, rfl, rfl⟩
theorem witness_command_step : ∃ t, step (hosting lineLoad base) = .next t ∧ executing (hosting lineLoad base) = some (.load []) :=
  ⟨_, rfl, by decide⟩
theorem witness_no_stop : let s := hosting lineSelectA { base with txq := [7] }
    (∀ line ∈ s.input, ∀ argv, decode line ≠ .stop argv) ∧ ∃ t, runSteps 1 s = .next t :=
  ⟨fun line hl argv h => Instr.noConfusion
    ((show Instr.select [[0x41]] = decode lineSelectA by decide).trans ((List.mem_singleton.1 hl) ▸ h)), _, rfl⟩

theorem witness_invariant : MachineInv (hosting lineClear base) ∧ ∃ t, step (hosting lineClear base) = .next t :=
  ⟨⟨by unfold QueueWithinCapacity; decide, by unfold UniformMatrix; decide⟩, _, rfl⟩
theorem witness_armed : let s := before (.agent .ser) { base with pend := true, txq := [7] }
    ArmedStrobeHasCompletion s ∧ (∀ argv, executing s ≠ some (.stop argv)) ∧ ∃ t, step s = .next t :=
  ⟨by unfold ArmedStrobeHasCompletion; decide, fun _ h => by simp [executing, nextTurn, before] at h, _, rfl⟩

theorem witness_wellFormed : WellFormed (.select [[0x41]]) = true ∧ WellFormed .overlong = true := by decide
theorem witness_token : tokenWf [0x53, 0x45, 0x4C] = true ∧ isSpace 0x09 = true ∧ [0x41] ∈ tokenize lineSelectA := by decide
theorem witness_tokenZero : tokenize lineSelectA = [[0x53, 0x45, 0x4C, 0x45, 0x43, 0x54], [0x41]] ∧ Cmd.select ≠ Cmd.invalid := by decide
theorem witness_foldCase_ranges : 0x61 ≤ (0x61 : Byte).toNat ∧ (0x7A : Byte).toNat ≤ 0x7A ∧ (0x60 : Byte).toNat < 0x61 ∧
    0x7A < (0x7B : Byte).toNat := by decide
theorem witness_accumulator_bits : 0 < groupOffset 0 ∧ groupOffset 0 + 40 ≤ 41 ∧ groupOffset 3 + 40 ≤ 40 := by decide
theorem witness_switch_bit : ¬((0 : Fin 32) = 16 ∧ (4 : Fin 5) = 4) ∧ ¬((0 : Fin 32) = 15 ∧ (4 : Fin 5) = 0) := by decide
theorem witness_uniform_byte : (1 : Fin 15).val ∈ [1, 2, 3, 4, 11, 12, 13, 14] ∧ (14 : Fin 15).val ∈ [1, 2, 3, 4, 11, 12, 13, 14] := by decide
theorem witness_busBits : let s := before (.agent .ser) { base with txq := [0x20, 0x84] }
    nextTurn s = .agent .ser ∧ s.txq = [0x20, 0x84] ∧ ∃ t, step s = .next t := ⟨by decide, by decide, _, rfl⟩

theorem witness_frame_delivered :
    let s : State := { base with input := [lineSelectA], sched := .agent .cu :: serTurns 20 ++ .agent .ch :: [] }
    s.input = lineSelectA :: [] ∧ frameCommandValue (decode lineSelectA) = some 16 ∧
      s.sched = .agent .cu :: serTurns 20 ++ .agent .ch :: [] ∧ s.clkEn = false ∧ s.txq = [] := by decide
theorem witness_back_to_back : let s : State := { base with input := [lineClear, lineSelectA] }
    s.input = [lineClear, lineSelectA] ∧ frameCommandValue (decode lineClear) = some 0 ∧
      frameCommandValue (decode lineSelectA) = some 16 ∧ s.clkEn = false ∧ s.txq = [] ∧ 20 ≤ s.cfg.txqSpare := by decide
theorem witness_stopped_frame :
    let s : State := { base with
      input := [lineStop, lineClock], pend := true, txq := List.replicate 15 7,
      sched := [.agent .cu, .agent .ch, .agent .cu, .agent .fill, .agent .ser, .agent .ch] }
    s.input = [lineStop, lineClock] ∧ decode lineStop = .stop [] ∧ decode lineClock = .clock [] ∧ s.pend = true ∧ s.done = false ∧
      s.sched = [.agent .cu, .agent .ch, .agent .cu, .agent .fill, .agent .ser, .agent .ch] := by decide
theorem witness_drains :
    let s : State := { base with
      pend := true, txq := [1, 2], sched := [.agent .ser, .reconnect, .agent .ch, .agent .ser] ++ .agent .ch :: [.agent .fill] }
    s.input = [] ∧ s.clkEn = false ∧ s.sched = [.agent .ser, .reconnect, .agent .ch, .agent .ser] ++ .agent .ch :: [.agent .fill] ∧
      s.txq.length ≤ ([.agent .ser, .reconnect, .agent .ch, .agent .ser] : List Turn).count (.agent .ser) ∧
      (s.pend = true → s.txq ≠ [] ∨ s.done = true) := by decide

/-! A run that meets the premises of `Obligations.FairRunReachesQuiescence` and in which something is left to do: one queued byte and
an armed strobe, and from the third state on quiescence, whatever the free turns are. -/

/-- The run's first state. -/
def fairStart : State := { base with pend := true, txq := [7], sched := [.agent .ser, .agent .ch] }

/-- The run's third state, with `n` free turns taken. -/
def fairEnd (n : Nat) : State :=
  { base with trace := [.wireByte 7, .strobe], tick := n }

/-- The run. -/
def fairRun : Nat → State
  | 0 => fairStart
  | 1 => { base with pend := true, done := true, trace := [.wireByte 7], sched := [.agent .ch] }
  | n + 2 => fairEnd n

theorem fairEnd_idle (n : Nat) : step (fairEnd n) = .next (fairEnd (n + 1)) := by
  obtain ⟨t, ht, hs⟩ := silent_step (s := fairEnd n) ⟨rfl, rfl⟩
  have hc : consumeTurn (fairEnd n) = fairEnd (n + 1) := rfl
  rw [ht]
  cases hs with
  | idle => rw [hc]
  | shifted _ b rest hq => exact absurd hq (by simp [fairEnd, base])
  | completed _ hd => exact absurd hd (by simp [fairEnd, base])
  | strobed _ hd => exact absurd hd (by simp [fairEnd, base])

theorem fairRun_isRun : IsRun fairRun
  | 0 => rfl
  | 1 => rfl
  | n + 2 => fairEnd_idle n

theorem fairRun_fair (a : Agent) (ha : ∀ n, enabled a (fairEnd n) = false) : WeaklyFair a fairRun := by
  intro k hk
  have := hk (k + 2) (by omega)
  rw [show fairRun (k + 2) = fairEnd k from rfl, ha] at this
  cases this

theorem witness_fair_run : IsRun fairRun ∧ WeaklyFair .ser fairRun ∧ WeaklyFair .ch fairRun ∧ (fairRun 0).input = [] ∧
    (fairRun 0).clkEn = false ∧ ArmedStrobeHasCompletion (fairRun 0) ∧ (fairRun 0).pend = true :=
  ⟨fairRun_isRun, fairRun_fair .ser fun _ => rfl, fairRun_fair .ch fun _ => rfl, rfl, rfl,
    fun _ => .inl (by simp [fairRun, fairStart]), rfl⟩

end Sys2Proof.Tests
end

section
/-! The tokenizer's statement (30_encoding.md R71), assembled from the laws of the tokenizer. -/

namespace Sys2Proof

theorem tokenize_nil : tokenize [] = [] := rfl

theorem tokenize_append_space {w : Byte} (hw : isSpace w = true) (a b : Line) :
    tokenize (a ++ w :: b) = tokenize a ++ tokenize b :=
  tokenizeFrom_append_space hw b a []

/-- Settles O37: the separator law and the well-formedness of every token hold with any part of a token already read. -/
theorem tokensAreMaximalRuns : Obligations.TokensAreMaximalRuns :=
  ⟨tokenize_nil, fun _ ht => tokenize_token ht, fun a b _ hw => tokenize_append_space hw a b,
    fun line _ ht => tokenize_wf line ht⟩

end Sys2Proof
end

section
/-! The groups' constants (40_codec.md R91 to R93): the offset of a group, and the matrix index at each position of a group. -/

namespace Sys2Proof.Machine

theorem groupOffset_table : (List.finRange 4).map groupOffset = [1, 1, 0, 0] := by decide

theorem switchIndex_val (i : Fin 4) (j : Fin 8) : (switchIndex i j).val = 32 - 8 * i.val - 1 - j.val := rfl

/-- Groups and positions count the matrix down from its highest index (R92). -/
theorem switchIndex_reversed (i : Fin 4) (j : Fin 8) : 8 * i.val + j.val = 31 - (switchIndex i j).val := by
  rw [switchIndex_val]
  omega

/-- A group's positions stay inside the group's interval (R91). -/
theorem switchIndex_mem_group (i : Fin 4) (j : Fin 8) :
    32 - 8 * (i.val + 1) ≤ (switchIndex i j).val ∧ (switchIndex i j).val < 32 - 8 * i.val := by
  have hrev := switchIndex_reversed i j
  omega

end Sys2Proof.Machine

namespace Sys2Proof

/-- Settles O40: the four offsets are evaluated, and the interval of a group follows from the reversed order within it. -/
theorem groupConstants : Obligations.GroupConstants :=
  ⟨Machine.groupOffset_table, fun i j => ⟨Machine.switchIndex_reversed i j, Machine.switchIndex_mem_group i j⟩⟩

end Sys2Proof
end

section
/-! The status of a command step (41_commands.md R112), read off `exec_outcome`: either the step only replies, or its status is OK. -/

namespace Sys2Proof.Machine

theorem exec_next {i : Instr} {s t : State} (h : exec i s = .next t) : ExecOutcome i s (.next t) := h ▸ exec_outcome i s

theorem exec_next_reply_or_ok {i : Instr} {s t : State} (h : exec i s = .next t) :
    (∃ st, t = s.reply st) ∨ t.statuses = s.statuses ++ [.ok] := by
  cases exec_next h with
  | statusOnly st => exact .inl ⟨st, rfl⟩
  | frame v => exact .inr (frameStarted_statuses v s)
  | strobed | clockSet | stopped => exact .inr rfl

end Sys2Proof.Machine

namespace Sys2Proof

/-- Settles O11: a step that does more than reply replies OK. -/
theorem nonOkStatusChangesNothing : Obligations.NonOkStatusChangesNothing := by
  intro i s t h
  obtain ⟨st, rfl⟩ | hok := Machine.exec_next_reply_or_ok h
  · exact ⟨st, rfl, fun _ => rfl⟩
  · exact ⟨.ok, hok, fun hne => absurd rfl hne⟩

end Sys2Proof
end

section
/-! What an instruction keeps, writes and returns, read off `exec_outcome` (41_commands.md R112, R125). -/

namespace Sys2Proof.Machine

theorem ExecOutcome.keeps_environment {i : Instr} {s t : State} (h : ExecOutcome i s (.next t)) :
    t.cfg = s.cfg ∧ t.input = s.input ∧ t.done = s.done := by
  cases h <;> exact ⟨rfl, rfl, rfl⟩

theorem ExecOutcome.statuses_append {i : Instr} {s t : State} (h : ExecOutcome i s (.next t)) :
    ∃ st, t.statuses = s.statuses ++ [st] := by
  cases h <;> exact ⟨_, rfl⟩

/-- Outside a frame start an instruction leaves the matrix, `FRAME` and `PEND` alone. -/
theorem ExecOutcome.frameStarted_or_keeps {i : Instr} {s t : State} (h : ExecOutcome i s (.next t)) :
    (∃ v, frameCommandValue i = some v ∧ s.clkEn = false ∧ t = frameStarted v s) ∨
    (t.sw = s.sw ∧ t.frame = s.frame ∧ t.pend = s.pend) := by
  cases h with
  | frame v hv hclk => exact .inl ⟨v, hv, hclk, rfl⟩
  | statusOnly | strobed | clockSet | stopped => exact .inr ⟨rfl, rfl, rfl⟩

/-- An instruction shifts nothing out; the queue is discarded, or grows by a frame, or stays. -/
theorem ExecOutcome.queue {i : Instr} {s t : State} (h : ExecOutcome i s (.next t)) :
    wireBytes t.trace = wireBytes s.trace ∧
      ((∃ argv, i = .stop argv ∧ t.txq = []) ∨
       (∃ v, frameCommandValue i = some v ∧ s.txq.length + 20 ≤ s.cfg.txqCap ∧ t.txq = s.txq ++ uniformFrame v) ∨
       t.txq = s.txq) := by
  cases h with
  | stopped argv hi => exact ⟨rfl, .inl ⟨argv, hi, rfl⟩⟩
  | frame v hv _ hroom => exact ⟨rfl, .inr (.inl ⟨v, hv, hroom, rfl⟩)⟩
  | strobed => exact ⟨by simp, .inr (.inr rfl)⟩
  | statusOnly | clockSet => exact ⟨rfl, .inr (.inr rfl)⟩

/-- The trace grows only by LOAD's strobe. -/
theorem ExecOutcome.trace {i : Instr} {s t : State} (h : ExecOutcome i s (.next t)) :
    t.trace = s.trace ∨ (t.trace = s.trace ++ [.strobe] ∧ s.clkEn = false ∧ ∃ argv, i = .load argv) := by
  cases h with
  | strobed argv hi hclk => exact .inr ⟨rfl, hclk, argv, hi⟩
  | statusOnly | frame | clockSet | stopped => exact .inl rfl

/-- The only stop is START_FRAME's: there is no other fault, and no refusal. -/
theorem ExecOutcome.next_or_overflow {i : Instr} {s : State} {r : Result} (h : ExecOutcome i s r) :
    (∃ t, r = .next t) ∨ (r = .fault .txQueueOverflow ∧ s.clkEn = false ∧ s.cfg.txqCap < s.txq.length + 20 ∧
      ∃ v, frameCommandValue i = some v) := by
  cases h with
  | overflow v hv hclk hfull => exact .inr ⟨rfl, hclk, hfull, v, hv⟩
  | statusOnly | frame | strobed | clockSet | stopped => exact .inl ⟨_, rfl⟩

theorem exec_frameCommand_gated {i : Instr} {v : Switch} (hv : frameCommandValue i = some v) {s : State}
    (hclk : s.clkEn = true) : exec i s = .next (s.reply .clockActiveError) := by
  obtain ⟨-, h⟩ | ⟨hoff, -⟩ | ⟨hoff, -⟩ := exec_frameCommand hv s
  · exact h
  · simp [hclk] at hoff
  · simp [hclk] at hoff

theorem exec_frameCommand_of_room {i : Instr} {v : Switch} (hv : frameCommandValue i = some v) {s : State}
    (hclk : s.clkEn = false) (hroom : s.txq.length + 20 ≤ s.cfg.txqCap) : exec i s = .next (frameStarted v s) := by
  obtain ⟨hon, -⟩ | ⟨-, -, h⟩ | ⟨-, hfull, -⟩ := exec_frameCommand hv s
  · simp [hclk] at hon
  · exact h
  · omega

theorem exec_frameCommand_of_full {i : Instr} {v : Switch} (hv : frameCommandValue i = some v) {s : State}
    (hclk : s.clkEn = false) (hfull : s.cfg.txqCap < s.txq.length + 20) : exec i s = .fault .txQueueOverflow := by
  obtain ⟨hon, -⟩ | ⟨-, hroom, -⟩ | ⟨-, -, h⟩ := exec_frameCommand hv s
  · simp [hclk] at hon
  · omega
  · exact h

end Sys2Proof.Machine

namespace Sys2Proof

/-- Settles O12: the rows of R125 are the outcomes of `ExecOutcome`; one that only replies replies OK for NOOP alone. -/
theorem okPathWrites : Obligations.OkPathWrites := by
  intro i s t h hok
  cases Machine.exec_next h with
  | statusOnly st hnoop =>
    have hst : st = .ok := by simpa using hok
    obtain ⟨argv, hi⟩ := hnoop hst
    exact .inl ⟨argv, hi, hst ▸ rfl⟩
  | frame v hv => exact .inr (.inl ⟨v, hv, rfl⟩)
  | strobed argv hi => exact .inr (.inr (.inl ⟨argv, hi, rfl⟩))
  | clockSet argv hi => exact .inr (.inr (.inr (.inl ⟨argv, hi, rfl⟩)))
  | stopped argv hi => exact .inr (.inr (.inr (.inr ⟨argv, hi, rfl⟩)))

end Sys2Proof
end

section
/-! Rules of one step of the whole machine, each a case analysis on `step_outcome`. -/

namespace Sys2Proof.Machine

/-- A step either executes an instruction on the state with the turn and the line taken, or it executes none. -/
theorem step_executed_or_not {s t : State} (h : step s = .next t) :
    (∃ line rest, executing s = some (decode line) ∧ s.input = line :: rest ∧
      ExecOutcome (decode line) { consumeTurn s with input := rest } (.next t)) ∨
    (executing s = none ∧ t.cfg = s.cfg ∧ t.sw = s.sw ∧ t.frame = s.frame ∧ t.clkEn = s.clkEn ∧
      t.statuses = s.statuses ∧ t.input = s.input) := by
  cases step_next h with
  | executed line rest ht hi hx r hr => exact .inl ⟨line, rest, hx, hi, hr⟩
  | idle hx | shifted hx | completed hx | strobed hx | filled hx => exact .inr ⟨hx, by simp⟩

theorem step_cfg {s t : State} (h : step s = .next t) : t.cfg = s.cfg := by
  obtain ⟨_, _, -, -, hr⟩ | ⟨-, hcfg, -⟩ := step_executed_or_not h
  · exact hr.keeps_environment.1.trans (consumeTurn_cfg s)
  · exact hcfg

/-- A frame start is the only step that writes the matrix or `FRAME`. -/
theorem step_frameStarted_or_keeps {s t : State} (h : step s = .next t) :
    (∃ i v, executing s = some i ∧ frameCommandValue i = some v ∧ s.clkEn = false ∧
      t.sw = Vector.replicate 32 v ∧ t.frame = pack t.sw ∧ t.txq = s.txq ++ t.frame.toList) ∨
    (t.sw = s.sw ∧ t.frame = s.frame) := by
  obtain ⟨line, rest, hx, -, hr⟩ | ⟨-, -, hsw, hframe, -⟩ := step_executed_or_not h
  · obtain ⟨v, hv, hclk, rfl⟩ | ⟨hsw, hframe, -⟩ := hr.frameStarted_or_keeps
    · exact .inl ⟨_, v, hx, hv, by simpa using hclk, rfl, rfl, by simp [uniformFrame]⟩
    · exact .inr ⟨by simpa using hsw, by simpa using hframe⟩
  · exact .inr ⟨hsw, hframe⟩

theorem uniformMatrix_of_replicate {s : State} {v : Switch} (h : s.sw = Vector.replicate 32 v) : UniformMatrix s := by
  intro n
  simp [h]

theorem step_uniformMatrix {s t : State} (hu : UniformMatrix s) (h : step s = .next t) : UniformMatrix t := by
  obtain ⟨_, v, -, -, -, hsw, -⟩ | ⟨hsw, -⟩ := step_frameStarted_or_keeps h
  · exact uniformMatrix_of_replicate hsw
  · unfold UniformMatrix
    rw [hsw]
    exact hu

/-- The queue's bound: a frame is pushed only where it fits, and an idle byte only below the low-water mark. -/
theorem step_queueWithinCapacity {s t : State} (hq : QueueWithinCapacity s) (h : step s = .next t) :
    QueueWithinCapacity t := by
  unfold QueueWithinCapacity at *
  rw [step_cfg h]
  cases step_next h with
  | executed line rest ht hi hx r hr =>
    obtain ⟨-, ⟨_, -, hempty⟩ | ⟨v, -, hroom, hpush⟩ | hsame⟩ := hr.queue
    · simp [hempty]
    · simpa [hpush, uniformFrame_length] using hroom
    · simpa [hsame] using hq
  | idle | completed | strobed => simpa using hq
  | shifted hx ht b rest hb =>
    rw [hb, List.length_cons] at hq
    exact Nat.le_of_succ_le hq
  | filled hx ht hc hlow =>
    have hcap := Config.frame_fits s.cfg
    rw [List.length_append, List.length_singleton]
    omega

theorem step_keeps_machineInv {s t : State} (hs : MachineInv s) (h : step s = .next t) : MachineInv t :=
  ⟨step_queueWithinCapacity hs.1 h, step_uniformMatrix hs.2 h⟩

/-- What a step answers: the next state, or the one fault of R192. -/
theorem step_next_or_overflow (s : State) :
    (∃ t, step s = .next t) ∨
    (step s = .fault .txQueueOverflow ∧ s.clkEn = false ∧ s.cfg.txqCap < s.txq.length + 20 ∧
      ∃ i v, executing s = some i ∧ frameCommandValue i = some v) := by
  generalize hr : step s = r
  cases hr ▸ step_outcome s with
  | executed line rest ht hi hx r hr =>
    obtain hnext | ⟨hfault, hclk, hfull, v, hv⟩ := hr.next_or_overflow
    · exact .inl hnext
    · exact .inr ⟨hfault, by simpa using hclk, by simpa using hfull, _, v, hx, hv⟩
  | idle | shifted | completed | strobed | filled => exact .inl ⟨_, rfl⟩

theorem step_overflow {s : State} {i : Instr} {v : Switch} (hclk : s.clkEn = false)
    (hfull : s.cfg.txqCap < s.txq.length + 20) (hx : executing s = some i) (hv : frameCommandValue i = some v) :
    step s = .fault .txQueueOverflow := by
  obtain ⟨ht, line, rest, hi, rfl⟩ := executing_eq_some hx
  rw [step_of_line ht hi]
  exact exec_frameCommand_of_full hv (by simpa using hclk) (by simpa using hfull)

theorem step_clkEn_or_executed_clock_stop {s t : State} (h : step s = .next t) :
    (∃ argv, executing s = some (.clock argv) ∧ t.clkEn = true) ∨
    (∃ argv, executing s = some (.stop argv) ∧ t.clkEn = false) ∨
    ((∀ argv, executing s ≠ some (.clock argv) ∧ executing s ≠ some (.stop argv)) ∧ t.clkEn = s.clkEn) := by
  obtain ⟨line, rest, hx, -, hr⟩ | ⟨hx, -, -, -, hclk, -⟩ := step_executed_or_not h
  · rw [hx]
    generalize decode line = i at hr
    cases hr with
    | statusOnly st hok hclock hstop => exact .inr (.inr ⟨by simp [hclock, hstop], by simp⟩)
    | frame v hv =>
      exact .inr (.inr ⟨by simp [frameCommandValue_ne_clock hv, frameCommandValue_ne_stop hv], by simp⟩)
    | strobed argv hi => exact .inr (.inr ⟨by simp [hi], by simp⟩)
    | clockSet argv hi => exact .inl ⟨argv, by rw [hi], rfl⟩
    | stopped argv hi => exact .inr (.inl ⟨argv, by rw [hi], rfl⟩)
  · exact .inr (.inr ⟨by simp [hx], hclk⟩)

/-- What a step does to the queue and the bus: STOP discards, SER moves the head, and every push goes to the end. -/
theorem step_queue {s t : State} (h : step s = .next t) :
    (∃ argv, executing s = some (.stop argv) ∧ t.txq = [] ∧ wireBytes t.trace = wireBytes s.trace) ∨
    ∃ pushed, wireBytes t.trace ++ t.txq = wireBytes s.trace ++ s.txq ++ pushed ∧
      (pushed = [] ∨
       (pushed = [0x00] ∧ nextTurn s = .agent .fill ∧ s.clkEn = true ∧ s.txq.length < 4) ∨
       (∃ i v, executing s = some i ∧ frameCommandValue i = some v ∧ pushed = uniformFrame v)) := by
  cases step_next h with
  | executed line rest ht hi hx r hr =>
    obtain ⟨htrace, ⟨argv, hstop, hempty⟩ | ⟨v, hv, -, hpush⟩ | hsame⟩ := hr.queue
    · exact .inl ⟨argv, hstop ▸ hx, hempty, by simpa using htrace⟩
    · exact .inr ⟨uniformFrame v, by simp [htrace, hpush], .inr (.inr ⟨_, v, hx, hv, rfl⟩)⟩
    · exact .inr ⟨[], by simp [htrace, hsame], .inl rfl⟩
  | idle | completed | strobed => exact .inr ⟨[], by simp, .inl rfl⟩
  | shifted hx ht b rest hb => exact .inr ⟨[], by simp [hb], .inl rfl⟩
  | filled hx ht hc hlow => exact .inr ⟨[0x00], by simp, .inr (.inl ⟨rfl, ht, hc, hlow⟩)⟩

/-- The lines still to come after a step were already to come before it. -/
theorem step_input_subset {s t : State} (h : step s = .next t) : t.input ⊆ s.input := by
  obtain ⟨line, rest, -, hi, hr⟩ | ⟨-, -, -, -, -, -, hin⟩ := step_executed_or_not h
  · obtain ⟨-, hin, -⟩ := hr.keeps_environment
    rw [hi, hin]
    exact List.subset_cons_self line rest
  · rw [hin]
    exact List.Subset.refl _

/-- Only STOP loses queued bytes, and a step executes one only if a line presented is one. -/
theorem step_bytes_of_no_stop {s t : State} (hno : ∀ line ∈ s.input, ∀ argv, decode line ≠ .stop argv)
    (h : step s = .next t) : wireBytes s.trace ++ s.txq <+: wireBytes t.trace ++ t.txq := by
  obtain ⟨argv, hx, -⟩ | ⟨pushed, heq, -⟩ := step_queue h
  · obtain ⟨-, line, rest, hi, hstop⟩ := executing_eq_some hx
    exact absurd hstop (hno line (by simp [hi]) argv)
  · exact ⟨pushed, heq.symm⟩

theorem run_bytes_of_no_stop {k : Nat} : ∀ {s t : State}, (∀ line ∈ s.input, ∀ argv, decode line ≠ .stop argv) →
    runSteps k s = .next t → wireBytes s.trace ++ s.txq <+: wireBytes t.trace ++ t.txq := by
  induction k with
  | zero =>
    intro s t _ h
    cases h
    exact List.prefix_rfl
  | succ k ih =>
    intro s t hno h
    obtain ⟨m, hm, hk⟩ := run_succ_inv h
    have hfirst := step_bytes_of_no_stop hno hm
    exact hfirst.trans (ih (fun line hl => hno line (step_input_subset hm hl)) hk)

end Sys2Proof.Machine

namespace Sys2Proof

open Machine

/-- Settles O27: the executed instruction replies once and took its line; every other turn replies nothing and takes none. -/
theorem oneStatusPerCommand : Obligations.OneStatusPerCommand := by
  intro s t h
  refine ⟨step_cfg h, ?_⟩
  obtain ⟨line, rest, hx, hi, hr⟩ | ⟨hx, -, -, -, -, hst, hin⟩ := step_executed_or_not h
  · obtain ⟨st, hst⟩ := hr.statuses_append
    obtain ⟨-, hin, -⟩ := hr.keeps_environment
    refine ⟨fun hnone => by simp [hx] at hnone, fun i hsome => ?_⟩
    exact ⟨⟨st, by simpa using hst⟩, line, by rw [hi, hin], by simpa [hx] using hsome⟩
  · exact ⟨fun _ => ⟨hst, hin⟩, fun i hsome => by simp [hx] at hsome⟩

/-- Settles O28: the queue's rule said of a step. -/
theorem queueIsFirstInFirstOut : Obligations.QueueIsFirstInFirstOut := fun _ _ h => step_queue h

/-- Settles O29: one step loses no byte while no line to come is a STOP, and the lines to come only get fewer. -/
theorem noByteLostWithoutStop : Obligations.NoByteLostWithoutStop := fun _ _ _ hno h => run_bytes_of_no_stop hno h

/-- Settles O32: the two halves of the invariant are kept apart, and no step writes `cfg`. -/
theorem stepKeepsInvariant : Obligations.StepKeepsInvariant := fun _ _ hs h =>
  ⟨step_keeps_machineInv hs h, step_cfg h⟩

/-- Settles O21: the fault's conditions are those of START_FRAME on the executed instruction. -/
theorem stepStopsOnlyOnOverflow : Obligations.StepStopsOnlyOnOverflow := by
  intro s
  obtain ⟨t, ht⟩ | ⟨hfault, hclk, hfull, hframe⟩ := step_next_or_overflow s
  · refine ⟨fun r => ⟨fun h => by simp [ht] at h, ?_⟩, fun r h => by simp [ht] at h⟩
    rintro ⟨-, hclk, hfull, i, v, hx, hv⟩
    simp [step_overflow hclk hfull hx hv] at ht
  · refine ⟨fun r => ⟨fun h => ?_, fun h => h.1 ▸ hfault⟩, fun r h => by simp [hfault] at h⟩
    exact ⟨Host.Outcome.fault.inj (h.symm.trans hfault), hclk, hfull, hframe⟩

/-- Settles O22: a step that keeps both is none that changes one. -/
theorem matrixAndFrameWriters : Obligations.MatrixAndFrameWriters := by
  intro s t h hchange
  obtain hstarted | ⟨hsw, hframe⟩ := step_frameStarted_or_keeps h
  · exact hstarted
  · exact hchange.elim (absurd hsw) (absurd hframe)

/-- Settles O23: the three kinds of steps exclude each other. -/
theorem clockFlagWriters : Obligations.ClockFlagWriters := by
  intro s t h
  obtain ⟨argv, hx, hclk⟩ | ⟨argv, hx, hclk⟩ | ⟨hx, hclk⟩ := step_clkEn_or_executed_clock_stop h
  · exact ⟨fun _ _ => hclk, fun _ hstop => by simp [hx] at hstop, fun hnot => absurd hx (hnot argv).1⟩
  · exact ⟨fun _ hclock => by simp [hx] at hclock, fun _ _ => hclk, fun hnot => absurd hx (hnot argv).2⟩
  · exact ⟨fun a ha => absurd ha (hx a).1, fun a ha => absurd ha (hx a).2, fun _ => hclk⟩

/-- Settles O24: a command raises `PEND` only with its frame, and of the other agents CH alone writes it. -/
theorem pendingFlagDiscipline : Obligations.PendingFlagDiscipline := by
  intro s t h
  cases step_next h with
  | executed line rest ht hi hx r hr =>
    obtain ⟨v, hv, -, rfl⟩ | ⟨-, -, hpend⟩ := hr.frameStarted_or_keeps
    · exact ⟨fun _ _ => ⟨_, v, hx, hv, by simp⟩, fun _ hlow => by simp at hlow⟩
    · have hpend : t.pend = s.pend := by simpa using hpend
      exact ⟨fun hlow hhigh => by simp [hpend, hlow] at hhigh, fun hhigh hlow => by simp [hpend, hhigh] at hlow⟩
  | idle | shifted | completed | filled =>
    exact ⟨fun hlow hhigh => by simp [hlow] at hhigh, fun hhigh hlow => by simp [hhigh] at hlow⟩
  | strobed hx ht hd hp => exact ⟨fun _ hhigh => by simp at hhigh, fun _ _ => ⟨ht, hd, rfl⟩⟩

/-- Settles O25: commands and FILL leave `DONE` alone, SER raises it on the last byte, CH lowers it. -/
theorem completionSignalDiscipline : Obligations.CompletionSignalDiscipline := by
  intro s t h
  cases step_next h with
  | executed line rest ht hi hx r hr =>
    obtain ⟨-, -, hdone⟩ := hr.keeps_environment
    have hdone : t.done = s.done := by simpa using hdone
    exact ⟨fun hlow hhigh => by simp [hdone, hlow] at hhigh, fun hhigh hlow => by simp [hdone, hhigh] at hlow⟩
  | idle | filled =>
    exact ⟨fun hlow hhigh => by simp [hlow] at hhigh, fun hhigh hlow => by simp [hhigh] at hlow⟩
  | shifted hx ht b rest hb =>
    refine ⟨fun hlow hhigh => ?_, fun hhigh hlow => by simp [hhigh] at hlow⟩
    have hlast : rest = [] := by simpa [hlow] using hhigh
    exact ⟨ht, b, by rw [hb, hlast], hlast, rfl⟩
  | completed hx ht | strobed hx ht => exact ⟨fun _ hhigh => by simp at hhigh, fun _ _ => ht⟩

/-- Settles O26: each outcome of a step emits nothing, SER's byte, or the strobe of CH or LOAD. -/
theorem eventSources : Obligations.EventSources := by
  intro s t h
  cases step_next h with
  | executed line rest ht hi hx r hr =>
    obtain hsame | ⟨hstrobe, hclk, argv, hload⟩ := hr.trace
    · exact .inl (by simpa using hsame)
    · exact .inr (.inr ⟨by simpa using hstrobe, .inr ⟨by simpa using hclk, argv, hload ▸ hx⟩⟩)
  | idle | completed | filled => exact .inl (by simp)
  | shifted hx ht b rest hb => exact .inr (.inl ⟨b, ht, hb, rfl⟩)
  | strobed hx ht hd hp => exact .inr (.inr ⟨rfl, .inl ⟨ht, hd, hp, rfl⟩⟩)

/-- Settles O33: a frame start queues bytes, SER leaves bytes or raises `DONE`, and CH lowers `DONE` only with `PEND`. -/
theorem armedStrobeIsNotStranded : Obligations.ArmedStrobeIsNotStranded := by
  intro s t hs hnostop h
  unfold ArmedStrobeHasCompletion at *
  cases step_next h with
  | executed line rest ht hi hx r hr =>
    generalize decode line = i at hx hr
    cases hr with
    | frame v =>
      have hne : uniformFrame v ≠ [] := List.ne_nil_of_length_pos (by simp [uniformFrame_length])
      exact fun _ => .inl (by simp [hne])
    | stopped argv hstop => exact absurd (hstop ▸ hx) (hnostop argv)
    | statusOnly | strobed | clockSet => simpa using hs
  | idle => simpa using hs
  | filled => simp
  | shifted hx ht b rest hb => cases rest <;> simp
  | completed hx ht hd hp | strobed hx ht hd hp => simp [*]

end Sys2Proof
end

section
/-! The two encodings of a command: which record the tokens of a line give, and that the line which spells a record
is read back (30_encoding.md R64, R67, R73, R74). -/

namespace Sys2Proof

/-! ## The record of a line's tokens -/

theorem recordOfTokens_of_long {ts : List Token} (h : 12 < ts.length) : recordOfTokens ts = .overlong :=
  if_pos h

theorem recordOfTokens_nil : recordOfTokens [] = .parsed .invalid [] := rfl

theorem recordOfTokens_cons {t : Token} {argv : List Token} (h : argv.length ≤ 11) :
    recordOfTokens (t :: argv) = .parsed (cmdOfToken t) argv :=
  if_neg (by simpa [Nat.lt_succ_iff] using h)

theorem recordOfTokens_eq_overlong_iff {ts : List Token} : recordOfTokens ts = .overlong ↔ 12 < ts.length := by
  refine ⟨fun h => ?_, recordOfTokens_of_long⟩
  by_contra hshort
  match ts with
  | [] => simp [recordOfTokens_nil] at h
  | t :: argv =>
    rw [recordOfTokens_cons (by simpa [Nat.lt_succ_iff] using hshort)] at h
    cases h

theorem encodeRecord_decode (line : Line) : encodeRecord (decode line) = recordOfTokens (tokenize line) :=
  encodeRecord_decodeRecord _

theorem decode_eq_overlong_iff {line : Line} : decode line = .overlong ↔ 12 < (tokenize line).length := by
  rw [← recordOfTokens_eq_overlong_iff, ← encodeRecord_decode]
  generalize decode line = i
  cases i <;> simp [encodeRecord]

/-! ## Token 0 -/

theorem cmdOfToken_eq_invalid_iff {t : Token} :
    cmdOfToken t = .invalid ↔ ∀ c, c ≠ Cmd.invalid → t.map foldCase ≠ nameOfCmd c := by
  constructor
  · intro h c hc hname
    exact hc (((cmdOfToken_eq_iff hc).2 hname).symm.trans h)
  · intro h
    by_contra hne
    exact h _ hne ((cmdOfToken_eq_iff hne).1 rfl)

theorem mem_commandTable_of_name {c : Cmd} (hc : c ≠ .invalid) : (nameOfCmd c, c) ∈ commandTable := by
  revert hc
  cases c <;> decide

/-- A token that matches no row of the table names no command. -/
theorem cmdOfToken_of_unmatched {t : Token} (h : ∀ row ∈ commandTable, row.1 ≠ t.map foldCase) :
    cmdOfToken t = .invalid :=
  cmdOfToken_eq_invalid_iff.2 fun _ hc hname => h _ (mem_commandTable_of_name hc) hname.symm

theorem foldCase_toNat_of_lower {b : Byte} (h1 : 0x61 ≤ b.toNat) (h2 : b.toNat ≤ 0x7A) :
    (foldCase b).toNat = b.toNat - 0x20 := by
  have hlower : 0x61 ≤ b ∧ b ≤ 0x7A := ⟨h1, h2⟩
  rw [foldCase, if_pos hlower]
  exact BitVec.toNat_sub_of_le (show 0x20 ≤ b.toNat by omega)

theorem foldCase_of_other {b : Byte} (h : b.toNat < 0x61 ∨ 0x7A < b.toNat) : foldCase b = b := by
  have hother : ¬(0x61 ≤ b ∧ b ≤ 0x7A) := by
    rintro ⟨h1, h2⟩
    have h1 : 0x61 ≤ b.toNat := h1
    have h2 : b.toNat ≤ 0x7A := h2
    omega
  rw [foldCase, if_neg hother]

/-! ## Well-formedness and the encoder -/

theorem argv_decodeRecord_parsed (c : Cmd) (argv : List Token) : (decodeRecord (.parsed c argv)).argv = argv := by
  cases c <;> rfl

theorem encodeRecord_cases (i : Instr) : i = .overlong ∨ ∃ c, encodeRecord i = .parsed c i.argv := by
  cases i with
  | overlong => exact .inl rfl
  | noop | clear | write | select | load | clock | stop | invalid => exact .inr ⟨_, rfl⟩

theorem wellFormed_decodeRecord_recordOfTokens {ts : List Token} (h : ∀ t ∈ ts, tokenWf t = true) :
    WellFormed (decodeRecord (recordOfTokens ts)) = true := by
  by_cases hlong : 12 < ts.length
  · rw [recordOfTokens_of_long hlong]
    rfl
  · match ts with
    | [] => rfl
    | t :: argv =>
      have hlen : argv.length ≤ 11 := by simpa [Nat.lt_succ_iff] using hlong
      have hargv : argv.all tokenWf = true := List.all_eq_true.2 fun u hu => h u (List.mem_cons_of_mem _ hu)
      rw [recordOfTokens_cons hlen, WellFormed, argv_decodeRecord_parsed, argvWf, hargv]
      simpa [Nat.lt_succ_iff] using hlen

/-- The line that spells a command and its operands has them for its tokens. -/
theorem decode_spellRecord_parsed (c : Cmd) {argv : List Token} (h : argvWf argv = true) :
    decode (spellRecord (.parsed c argv)) = decodeRecord (.parsed c argv) := by
  obtain ⟨htokens, hlen⟩ : argv.all tokenWf = true ∧ argv.length ≤ 11 := by
    simpa [argvWf, Nat.lt_succ_iff] using h
  rw [decode, spellRecord, tokenize_spell (nameOfCmd_wf c) htokens, recordOfTokens_cons hlen, cmdOfToken_nameOfCmd]

/-- Thirteen tokens spell Overlong. -/
theorem decode_encode_overlong : decode (encode .overlong) = .overlong := by
  have htokens : tokenize (encode .overlong) = [0x58] :: List.replicate 12 [0x58] :=
    tokenize_spell (t := [0x58]) (by decide) (by decide)
  rw [decode_eq_overlong_iff, htokens]
  decide

theorem decode_encode {i : Instr} (h : WellFormed i = true) : decode (encode i) = i := by
  obtain rfl | ⟨c, hc⟩ := encodeRecord_cases i
  · exact decode_encode_overlong
  · rw [encode, hc, decode_spellRecord_parsed c h, ← hc, decodeRecord_encodeRecord]

/-! ## The whitespace bytes -/

theorem isSpace_iff (w : Byte) : isSpace w = true ↔ w.toNat = 0x20 ∨ (0x09 ≤ w.toNat ∧ w.toNat ≤ 0x0D) := by
  simp only [isSpace, Bool.or_eq_true, beq_iff_eq, ← BitVec.toNat_inj, BitVec.ofNat_eq_ofNat,
    BitVec.toNat_ofNat]
  omega

/-! ## The statements -/

/-- Settles O34: a spelled line has the record's tokens, and a record is read back from its instruction. -/
theorem decodeOfEncode : Obligations.DecodeOfEncode := fun _ h => decode_encode h

/-- Settles O36: a line's tokens are well-formed, and more than 12 of them give Overlong, which has no operands. -/
theorem everyLineDecodesWellFormed : Obligations.EveryLineDecodesWellFormed := fun line =>
  wellFormed_decodeRecord_recordOfTokens fun _ ht => tokenize_wf line ht

/-- Settles O38: the record of a decoded line is that of its tokens. -/
theorem tokenZeroSelectsCommand : Obligations.TokenZeroSelectsCommand := by
  intro line
  refine ⟨decode_eq_overlong_iff, fun t argv ht hlen => ?_, fun _ => foldCase_toNat_of_lower, fun _ => foldCase_of_other⟩
  have hrecord : ∀ c, encodeRecord (decode line) = .parsed c argv ↔ cmdOfToken t = c := fun c => by
    rw [encodeRecord_decode, ht, recordOfTokens_cons hlen]
    simp
  exact ⟨fun c hc => (hrecord c).trans (cmdOfToken_eq_iff hc), (hrecord _).trans cmdOfToken_eq_invalid_iff⟩

/-- Settles O9: an unmatched token 0 and the empty line give the record of INVALID. -/
theorem invalidReturnsInvalidCommand : Obligations.InvalidReturnsInvalidCommand := by
  refine ⟨rfl, fun line t argv ht hlen hrow => ?_, fun line ht => ?_, fun _ _ => rfl⟩
  · rw [decode, ht, recordOfTokens_cons hlen, cmdOfToken_of_unmatched hrow, decodeRecord]
  · rw [decode, ht, recordOfTokens_nil, decodeRecord]

/-- Settles O10: the count alone gives Overlong. -/
theorem overlongReturnsTooManyArgs : Obligations.OverlongReturnsTooManyArgs :=
  ⟨fun _ h => decode_eq_overlong_iff.2 h, fun _ => rfl⟩

/-- Settles O35: both maps act constructor by constructor. -/
theorem recordRoundTrip : Obligations.RecordRoundTrip := ⟨decodeRecord_encodeRecord, encodeRecord_decodeRecord⟩

/-- Settles O14: the codes are tables of eight and seven rows. -/
theorem numericCodes : Obligations.NumericCodes := by
  refine ⟨rfl, fun c => ?_, by decide, rfl⟩
  cases c <;> rfl

/-- Settles O39: eleven lines and eight record words, each decoded by evaluation. -/
theorem specLinesDecode : Obligations.SpecLinesDecode := by
  unfold Obligations.SpecLinesDecode
  decide

/-- Settles O55: the set is written out in `isSpace`. -/
theorem whitespaceBytes : Obligations.WhitespaceBytes := isSpace_iff

end Sys2Proof
end

section
/-! Where a switch bit lands (40_codec.md R94 to R98): its place in an accumulator, in the frame and in the printed layout table. -/

namespace Sys2Proof.Machine

/-! ## Accumulators -/

/-- The lane of a position in its group's accumulator is that position's switch (R94). -/
theorem accumulator_lane (m : SwitchMatrix) (i : Fin 4) (j : Fin 8) :
    (accumulator m i).extractLsb' (5 * j.val + groupOffset i) 5 = m[switchIndex i j] := by
  refine BitVec.eq_of_getLsbD_eq fun t ht => ?_
  rw [BitVec.getLsbD_extractLsb', decide_eq_true ht, Bool.true_and, Bool.eq_iff_iff, accumulator_getLsbD]
  constructor
  · rintro ⟨j', hle, hbit⟩
    have hlt := BitVec.lt_of_getLsbD hbit
    have hj : j' = j := Fin.ext (by omega)
    subst hj
    simpa using hbit
  · exact fun hbit => ⟨j, by omega, by simpa using hbit⟩

/-- No lane reaches below `S(i)` or up to `S(i) + 40` (R94). -/
theorem accumulator_outside (m : SwitchMatrix) (i : Fin 4) {p : Nat} (h : p < groupOffset i ∨ groupOffset i + 40 ≤ p) :
    (accumulator m i).getLsbD p = false := by
  by_contra hbit
  obtain ⟨j, hle, hlane⟩ := (accumulator_getLsbD m i p).1 (Bool.eq_true_of_not_eq_false hbit)
  have hlt := BitVec.lt_of_getLsbD hlane
  omega

/-! ## Frames, bit by bit -/

theorem frame_ext {f g : Frame} (h : ∀ p, p < 160 → frameBit f p = frameBit g p) : f = g := by
  refine Vector.ext fun k hk => BitVec.eq_of_getLsbD_eq fun b hb => ?_
  have hbit := h (8 * k + b) (by omega)
  rwa [frameBit_eq f ⟨k, hk⟩ b hb, frameBit_eq g ⟨k, hk⟩ b hb] at hbit

theorem frameWord_getLsbD_eq_frameBit (f : Frame) {p : Nat} (hp : p < 160) : (frameWord f).getLsbD p = frameBit f p := by
  have hsplit : 8 * (p / 8) + p % 8 = p := by omega
  have hword := frameWord_getLsbD f ⟨p / 8, by omega⟩ (p % 8) (by omega)
  have hbit := frameBit_eq f ⟨p / 8, by omega⟩ (p % 8) (by omega)
  simp only [hsplit] at hword hbit
  rw [hword, hbit]

theorem mergeGroup_comm (m : SwitchMatrix) (f : Frame) (i j : Fin 4) :
    mergeGroup m (mergeGroup m f i) j = mergeGroup m (mergeGroup m f j) i := by
  have hbyte : ∀ (a b : Fin 4) (x : Fin 20), (mergeGroup m (mergeGroup m f a) b)[x] =
      f[x] ||| (mergedByte m a x ||| mergedByte m b x) := fun a b x => by
    rw [mergeGroup_getElem, mergeGroup_getElem, BitVec.or_assoc]
  refine Vector.ext fun k hk => (hbyte i j ⟨k, hk⟩).trans ?_
  rw [BitVec.or_comm (mergedByte m i _)]
  exact (hbyte j i ⟨k, hk⟩).symm

/-! ## Lanes of the frame -/

/-- Bit `t` of switch `n` is one of the two that share frame bit 80 (R98). -/
abbrev SharesBit80 (n : Fin 32) (t : Fin 5) : Prop := n = 16 ∧ t = 4 ∨ n = 15 ∧ t = 0

theorem laneOffset_cases (n : Fin 32) :
    (n.val < 16 ∧ laneOffset n + 5 * n.val = 155) ∨ (16 ≤ n.val ∧ laneOffset n + 5 * n.val = 156) := by
  unfold laneOffset
  split
  · exact .inr ⟨by assumption, by omega⟩
  · exact .inl ⟨by omega, by omega⟩

theorem laneOffset_add_eq_80_iff (n : Fin 32) (t : Fin 5) : laneOffset n + t.val = 80 ↔ SharesBit80 n t := by
  simp only [SharesBit80, Fin.ext_iff]
  obtain ⟨hn, heq⟩ | ⟨hn, heq⟩ := laneOffset_cases n <;> omega

/-- Lanes overlap at frame bit 80 alone. -/
theorem lane_unique {n n' : Fin 32} {t t' : Fin 5} (h : laneOffset n + t.val = laneOffset n' + t'.val)
    (h80 : ¬SharesBit80 n t) : n = n' ∧ t = t' := by
  rw [← laneOffset_add_eq_80_iff] at h80
  simp only [Fin.ext_iff]
  obtain ⟨hn, heq⟩ | ⟨hn, heq⟩ := laneOffset_cases n <;>
    obtain ⟨hn', heq'⟩ | ⟨hn', heq'⟩ := laneOffset_cases n' <;> omega

/-- The lanes cover every frame bit but bit 0. -/
theorem exists_lane {p : Nat} (h0 : p ≠ 0) (hp : p < 160) : ∃ (n : Fin 32) (t : Fin 5), p = laneOffset n + t.val := by
  by_cases hlow : p ≤ 80
  · refine ⟨⟨31 - (p - 1) / 5, by omega⟩, ⟨(p - 1) % 5, by omega⟩, ?_⟩
    rw [laneOffset, if_pos (by simp only; omega)]
    simp only
    omega
  · refine ⟨⟨31 - p / 5, by omega⟩, ⟨p % 5, by omega⟩, ?_⟩
    rw [laneOffset, if_neg (by simp only; omega)]
    simp only
    omega

theorem landsOn_iff (m : SwitchMatrix) (p : Nat) (n : Fin 32) :
    LandsOn m p n ↔ ∃ t : Fin 5, p = laneOffset n + t.val ∧ m[n].getLsbD t.val = true := by
  constructor
  · rintro ⟨hle, hbit⟩
    exact ⟨⟨p - laneOffset n, BitVec.lt_of_getLsbD hbit⟩, by simp only; omega, hbit⟩
  · rintro ⟨t, rfl, hbit⟩
    exact ⟨by omega, by simpa using hbit⟩

theorem laneOffset_add_lt (n : Fin 32) (t : Fin 5) : laneOffset n + t.val < 160 := by
  have hle := laneOffset_le n
  omega

/-- A frame bit is set exactly when a switch bit whose lane holds it is set. -/
theorem frameBit_pack_iff (m : SwitchMatrix) {p : Nat} (hp : p < 160) :
    frameBit (pack m) p = true ↔ ∃ (n : Fin 32) (t : Fin 5), p = laneOffset n + t.val ∧ m[n].getLsbD t.val = true := by
  simp only [frameBit_pack m hp, landsOn_iff]

theorem frameBit_pack_zero (m : SwitchMatrix) : frameBit (pack m) 0 = false := by
  by_contra hbit
  obtain ⟨n, t, hlane, -⟩ := (frameBit_pack_iff m (p := 0) (by decide)).1 (Bool.eq_true_of_not_eq_false hbit)
  obtain ⟨hn, heq⟩ | ⟨hn, heq⟩ := laneOffset_cases n <;> omega

theorem frameBit_pack_80 (m : SwitchMatrix) :
    frameBit (pack m) 80 = (m[(16 : Fin 32)].getLsbD 4 || m[(15 : Fin 32)].getLsbD 0) := by
  rw [Bool.eq_iff_iff, frameBit_pack_iff m (by omega), Bool.or_eq_true]
  constructor
  · rintro ⟨n, t, hlane, hbit⟩
    obtain ⟨rfl, rfl⟩ | ⟨rfl, rfl⟩ := (laneOffset_add_eq_80_iff n t).1 hlane.symm
    · exact .inl hbit
    · exact .inr hbit
  · rintro (hbit | hbit)
    · exact ⟨16, 4, rfl, hbit⟩
    · exact ⟨15, 0, rfl, hbit⟩

/-- A switch bit that does not share bit 80 is read off the frame (R98). -/
theorem frameBit_pack_lane (m : SwitchMatrix) {n : Fin 32} {t : Fin 5} (h80 : ¬SharesBit80 n t) :
    frameBit (pack m) (laneOffset n + t.val) = m[n].getLsbD t.val := by
  rw [Bool.eq_iff_iff, frameBit_pack_iff m (laneOffset_add_lt n t)]
  constructor
  · rintro ⟨n', t', hlane, hbit⟩
    obtain ⟨rfl, rfl⟩ := lane_unique hlane h80
    exact hbit
  · exact fun hbit => ⟨n, t, rfl, hbit⟩

theorem not_sharesBit80_iff {n : Fin 32} {t : Fin 5} : ¬SharesBit80 n t ↔ ¬(n = 16 ∧ t = 4) ∧ ¬(n = 15 ∧ t = 0) :=
  not_or

/-- Frames of two matrices agree exactly when they agree at bit 80 and in every switch bit that has a frame bit of its own. -/
theorem pack_eq_iff (m m' : SwitchMatrix) : pack m = pack m' ↔
    frameBit (pack m) 80 = frameBit (pack m') 80 ∧
      ∀ (n : Fin 32) (t : Fin 5), ¬SharesBit80 n t → m[n].getLsbD t.val = m'[n].getLsbD t.val := by
  constructor
  · intro h
    refine ⟨by rw [h], fun n t h80 => ?_⟩
    rw [← frameBit_pack_lane m h80, ← frameBit_pack_lane m' h80, h]
  · rintro ⟨h80, hbits⟩
    refine frame_ext fun p hp => ?_
    by_cases h0 : p = 0
    · rw [h0, frameBit_pack_zero, frameBit_pack_zero]
    · obtain ⟨n, t, rfl⟩ := exists_lane h0 hp
      by_cases hshare : SharesBit80 n t
      · rw [(laneOffset_add_eq_80_iff n t).2 hshare, h80]
      · rw [frameBit_pack_lane m hshare, frameBit_pack_lane m' hshare, hbits n t hshare]

/-! ## The printed layout table (R60) -/

/-- Everything the table names at a bit has its lane there. -/
theorem layoutEntry_sound : ∀ (k : Fin 20) (b : Fin 8), ∀ e ∈ layoutEntry k.val b.val,
    8 * k.val + b.val = laneOffset e.1 + e.2.pos := by decide

/-- The switch bit at a place (R21). -/
def switchBitAt (t : Fin 5) : SwitchBit := [SwitchBit.E, .D, .C, .B, .A].get t

theorem switchBitAt_pos (t : Fin 5) : (switchBitAt t).pos = t.val := by
  revert t
  decide

/-- The table names every switch bit at the frame bit of its lane. -/
theorem layoutEntry_complete : ∀ (n : Fin 32) (t : Fin 5),
    (n, switchBitAt t) ∈ layoutEntry ((laneOffset n + t.val) / 8) ((laneOffset n + t.val) % 8) := by decide

theorem pack_getLsbD_eq_layoutValue (m : SwitchMatrix) (k : Fin 20) (b : Fin 8) :
    ((pack m)[k]).getLsbD b.val = layoutValue m (layoutEntry k.val b.val) := by
  rw [← frameBit_eq (pack m) k b.val b.isLt, Bool.eq_iff_iff, frameBit_pack_iff m (by omega), layoutValue, List.any_eq_true]
  constructor
  · rintro ⟨n, t, hlane, hbit⟩
    have hmem := layoutEntry_complete n t
    rw [← hlane, show (8 * k.val + b.val) / 8 = k.val by omega, show (8 * k.val + b.val) % 8 = b.val by omega] at hmem
    exact ⟨_, hmem, by rwa [switchBitAt_pos]⟩
  · rintro ⟨⟨n, sb⟩, hmem, hbit⟩
    exact ⟨n, ⟨sb.pos, BitVec.lt_of_getLsbD hbit⟩, layoutEntry_sound k b _ hmem, hbit⟩

/-! ## Uniform matrices and MASK (R100, R101) -/

/-- The letters that the table prints at a bit, whatever the switch. -/
def lettersAt (k b : Nat) : List SwitchBit := (layoutEntry k b).map Prod.snd

/-- On a uniform matrix a frame bit is the OR of the switch bits with the table's letters. -/
theorem uniform_bit (v : Switch) {k b : Nat} (hk : k < 20) (hb : b < 8) :
    ((pack (Vector.replicate 32 v))[k]).getLsbD b = (lettersAt k b).any fun sb => v.getLsbD sb.pos := by
  have h := pack_getLsbD_eq_layoutValue (Vector.replicate 32 v) ⟨k, hk⟩ ⟨b, hb⟩
  simpa [layoutValue, lettersAt, Function.comp_def] using h

theorem lettersAt_repeat : ∀ k ∈ [1, 2, 3, 4, 11, 12, 13, 14], ∀ b < 8, lettersAt (k + 5) b = lettersAt k b := by decide

theorem lettersAt_ten_zero : lettersAt 10 0 = [.E, .A] := by decide

theorem lettersAt_five : ∀ b < 8, lettersAt 5 b = lettersAt 0 b ++ if b = 0 then [.A] else [] := by decide

theorem lettersAt_fifteen : ∀ b < 8, lettersAt 15 b = if b = 0 then [.E] else lettersAt 10 b := by decide

theorem uniform_byte_repeats (v : Switch) {k : Nat} (hk : k < 15) (hmem : k ∈ [1, 2, 3, 4, 11, 12, 13, 14]) :
    (pack (Vector.replicate 32 v))[k + 5] = (pack (Vector.replicate 32 v))[k] := by
  refine BitVec.eq_of_getLsbD_eq fun b hb => ?_
  rw [uniform_bit v _ hb, uniform_bit v _ hb, lettersAt_repeat k hmem b hb]

theorem uniform_byte_five (v : Switch) : (pack (Vector.replicate 32 v))[5] =
    (pack (Vector.replicate 32 v))[0] ||| (v >>> 4).setWidth 8 := by
  refine BitVec.eq_of_getLsbD_eq fun b hb => ?_
  rw [BitVec.getLsbD_or, uniform_bit v _ hb, uniform_bit v _ hb, lettersAt_five b hb, List.any_append,
    BitVec.getLsbD_setWidth, BitVec.getLsbD_ushiftRight]
  by_cases h0 : b = 0
  · simp [h0, SwitchBit.pos]
  · simp [h0, hb, BitVec.getLsbD_of_ge v (4 + b) (by omega)]

theorem uniform_byte_fifteen (v : Switch) : (pack (Vector.replicate 32 v))[15] =
    ((pack (Vector.replicate 32 v))[10] &&& 0xFE) ||| (v &&& 1).setWidth 8 := by
  have hlow : ∀ b < 8, (0xFE : Byte).getLsbD b = !decide (b = 0) := by decide
  have hone : ∀ b < 8, (1 : Switch).getLsbD b = decide (b = 0) := by decide
  refine BitVec.eq_of_getLsbD_eq fun b hb => ?_
  rw [BitVec.getLsbD_or, BitVec.getLsbD_and, BitVec.getLsbD_setWidth, BitVec.getLsbD_and, uniform_bit v _ hb,
    uniform_bit v _ hb, lettersAt_fifteen b hb, hlow b hb, hone b hb]
  by_cases h0 : b = 0
  · simp [h0, SwitchBit.pos]
  · simp [h0]

theorem mask_of_unrecognised {c : Byte}
    (hc : c ∉ ([0x41, 0x42, 0x43, 0x44, 0x45, 0x61, 0x62, 0x63, 0x64, 0x65] : List Byte)) : mask c = 0 := by
  simp_all [mask]

end Sys2Proof.Machine

namespace Sys2Proof

open Machine

/-- Settles O41: a bit of an accumulator is a bit of the one switch whose lane holds it. -/
theorem accumulatorFields : Obligations.AccumulatorFields := fun m i =>
  ⟨accumulator_lane m i, fun _ => accumulator_outside m i⟩

/-- Settles O42: in both forms a bit is set exactly when some switch bit lands on it. -/
theorem packEqualsClosedForm : Obligations.PackEqualsClosedForm := by
  refine fun m => BitVec.eq_of_getLsbD_eq fun p hp => ?_
  rw [frameWord_getLsbD_eq_frameBit _ hp, Bool.eq_iff_iff, frameBit_pack m hp, packWord_getLsbD]

/-- Settles O43: the table is sound and complete for the lanes, and the lanes give the frame bits. -/
theorem frameLayoutTable : Obligations.FrameLayoutTable := pack_getLsbD_eq_layoutValue

/-- Settles O44: bit 0 is in no lane, bit 80 in two, and every other bit in one. -/
theorem switchBitsInFrame : Obligations.SwitchBitsInFrame := by
  refine fun m => ⟨frameBit_pack_zero m, frameBit_pack_80 m, fun n t h16 h15 => ?_⟩
  rw [← frameBit_pack_lane m (not_sharesBit80_iff.2 ⟨h16, h15⟩), laneOffset, Nat.add_right_comm]

/-- Settles O45: a frame is its bit 80 and the switch bits that have a frame bit of their own. -/
theorem packCollisions : Obligations.PackCollisions := by
  intro m m'
  simp only [pack_eq_iff, frameBit_pack_80, not_sharesBit80_iff, and_imp]

/-- Settles O46: a merge ORs its own byte into each frame byte. -/
theorem groupMergesCommute : Obligations.GroupMergesCommute := mergeGroup_comm

/-- Settles O47: on a uniform matrix a frame bit depends only on the letters its table entry names. -/
theorem uniformFrameRelations : Obligations.UniformFrameRelations := fun v =>
  ⟨fun k hk => uniform_byte_repeats v k.isLt hk, uniform_bit v (by decide) (by decide), uniform_byte_five v,
    (uniform_bit v (by decide) (by decide)).trans (by simp [lettersAt_ten_zero, SwitchBit.pos, Bool.or_comm]),
    uniform_byte_fifteen v⟩

/-- Settles O48: each of MASK's branches gives one of six values, and a byte outside the ten letters takes the last. -/
theorem maskTable : Obligations.MaskTable := by
  refine ⟨by decide, fun c hc => mask_of_unrecognised hc, fun c => ?_⟩
  unfold mask
  split_ifs <;> decide

/-- Settles O13: CLEAR and SELECT differ only in the value they write. -/
theorem unrecognisedSelectActsAsClear : Obligations.UnrecognisedSelectActsAsClear := by
  intro c argv s hc
  have hselect : exec (.select [[c]]) s = clockGate s (writeAndTransmit (mask c)) := rfl
  rw [hselect, mask_of_unrecognised hc]
  rfl

end Sys2Proof
end

section
/-! The result of each command (41_commands.md R120 to R127). -/

namespace Sys2Proof

open Machine

/-- Settles O1: no branch of NOOP reads the state or the operands. -/
theorem noopOnlyReturnsOk : Obligations.NoopOnlyReturnsOk :=
  ⟨rfl, cmdOfToken_nameOfCmd .noop, fun _ => rfl, fun _ _ => rfl⟩

theorem pack_zeroMatrix : pack (Vector.replicate 32 0) = Vector.replicate 20 0 := by decide

theorem uniformFrame_zero : uniformFrame 0 = List.replicate 20 0x00 := by
  rw [uniformFrame, pack_zeroMatrix]
  rfl

/-- Settles O2: the frame command of value 0, whose frame is all zeros. -/
theorem clearResult : Obligations.ClearResult := by
  intro argv s
  have hv : frameCommandValue (.clear argv) = some 0 := rfl
  refine ⟨exec_frameCommand_gated hv, fun hclk hroom => ?_, exec_frameCommand_of_full hv⟩
  rw [exec_frameCommand_of_room hv hclk hroom, frameStarted, pack_zeroMatrix, uniformFrame_zero]

/-- Settles O3: WRITE has one branch. -/
theorem writeReturnsNotImplemented : Obligations.WriteReturnsNotImplemented := fun _ _ => rfl

theorem exec_select_rejected {argv : List Token} {st : Status} (h : selectOperand argv = .rejected st) (s : State) :
    exec (.select argv) s = .next (s.reply st) := by
  simp only [exec, execSelect, h]

/-- Settles O4: the operand checks answer before the gate, by the operands' count and length alone. -/
theorem selectRejectsOperands : Obligations.SelectRejectsOperands := by
  intro argv s
  obtain ⟨hcount, hop⟩ | ⟨u, rfl, hlen, hop⟩ | ⟨c, rfl, -⟩ := selectOperand_cases argv
  · exact ⟨fun _ => exec_select_rejected hop s, fun t ht => absurd (by simp [ht]) hcount⟩
  · exact ⟨fun hcount => absurd rfl hcount, fun _ _ _ => exec_select_rejected hop s⟩
  · refine ⟨fun hcount => absurd rfl hcount, fun t ht hlen => absurd ?_ hlen⟩
    rw [← List.singleton_inj.1 ht, List.length_singleton]

/-- Settles O5: the frame command of value MASK(c). -/
theorem selectResult : Obligations.SelectResult := by
  intro c s
  have hv : frameCommandValue (.select [[c]]) = some (mask c) := rfl
  exact ⟨exec_frameCommand_gated hv, exec_frameCommand_of_room hv, exec_frameCommand_of_full hv⟩

theorem exec_load (argv : List Token) (s : State) :
    exec (.load argv) s = clockGate s fun s => .next ((s.emit .strobe).reply .ok) := rfl

/-- Settles O6: the gate decides between the refusal and the strobe. -/
theorem loadResult : Obligations.LoadResult := fun argv s =>
  ⟨fun hclk => (exec_load argv s).trans (clockGate_on hclk), fun hclk => (exec_load argv s).trans (clockGate_off hclk)⟩

/-- Settles O7: CLOCK has one branch. -/
theorem clockResult : Obligations.ClockResult := fun _ _ => rfl

/-- Settles O8: STOP has one branch. -/
theorem stopResult : Obligations.StopResult := fun _ _ => rfl

end Sys2Proof
end

section
/-! Turns: how one is chosen (20_memory.md R51) and what each agent's turn does (42_serializer.md R150 to R153). -/

namespace Sys2Proof.Machine

theorem step_of_turn {s : State} {t : Turn} (h : nextTurn s = t) : step s = takeTurn t (consumeTurn s) := by
  rw [step_eq, h]

theorem step_ser {s : State} (h : nextTurn s = .agent .ser) : step s = .next (serStep (consumeTurn s)) := step_of_turn h

theorem step_ch {s : State} (h : nextTurn s = .agent .ch) : step s = .next (chStep (consumeTurn s)) := step_of_turn h

theorem step_fill {s : State} (h : nextTurn s = .agent .fill) : step s = .next (fillStep (consumeTurn s)) := step_of_turn h

theorem step_ser_cons {s : State} {b : Byte} {rest : List Byte} (h : nextTurn s = .agent .ser) (hq : s.txq = b :: rest) :
    step s = .next { consumeTurn s with
      txq := rest, trace := s.trace ++ [.wireByte b], done := s.done || rest.isEmpty } := by
  rw [step_ser h, serStep_cons (b := b) (rest := rest) (by simpa using hq), consumeTurn_trace, consumeTurn_done]

theorem consumeTurn_nil {s : State} (h : s.sched = []) : consumeTurn s = { s with tick := s.tick + 1 } := by
  simp [consumeTurn, h]

theorem nextTurn_nil {s : State} (h : s.sched = []) : nextTurn s = Config.freeTurn s.tick := by
  simp [nextTurn, h]

/-- The bits of a shifted-out byte go to the end of the bus's stream (R151). -/
theorem busBits_emit_wireByte {s t : State} {b : Byte} (hcfg : t.cfg = s.cfg) (htrace : t.trace = s.trace ++ [.wireByte b]) :
    busBits t = busBits s ++ wireBits s.cfg.wireBitOrder b := by
  simp [busBits, hcfg, htrace]

end Sys2Proof.Machine

namespace Sys2Proof

open Machine

/-- Settles O15: the step's own equation on CU's turn. -/
theorem stepRunsDecodedInstruction : Obligations.StepRunsDecodedInstruction := fun _ _ _ ht hi => step_of_line ht hi

/-- Settles O16: the schedule's two forms. -/
theorem turnChoiceTouchesOnlySchedule : Obligations.TurnChoiceTouchesOnlySchedule :=
  ⟨fun s _ _ h => ⟨nextTurn_cons s h, consumeTurn_cons s h⟩, fun _ h => ⟨nextTurn_nil h, consumeTurn_nil h⟩⟩

/-- Settles O17: CU with no line and the reconnect both answer the state they are given. -/
theorem waitingAndReconnectChangeNothing : Obligations.WaitingAndReconnectChangeNothing := by
  rintro s (⟨ht, hi⟩ | ht)
  · exact (step_of_turn ht).trans (cuStep_nil (by simpa using hi))
  · exact step_of_turn ht

/-- Settles O18: the queue's three forms; only the last byte raises `DONE`. -/
theorem serializerStep : Obligations.SerializerStep := by
  intro s ht
  refine ⟨fun hq => ?_, fun b hq => ?_, fun b c rest hq => ?_⟩
  · rw [step_ser ht, serStep_nil (by simpa using hq)]
  · simpa using step_ser_cons ht hq
  · simpa using step_ser_cons ht hq

/-- Settles O19: the three cases of `DONE` and `PEND`. -/
theorem completionHandlerStep : Obligations.CompletionHandlerStep := by
  intro s ht
  refine ⟨fun hd => ?_, fun hd hp => ?_, fun hd hp => ?_⟩ <;> rw [step_ch ht]
  · rw [chStep_idle (by simpa using hd)]
  · rw [chStep_unarmed (by simpa using hd) (by simpa using hp)]
  · rw [chStep_armed (by simpa using hd) (by simpa using hp), consumeTurn_trace]

/-- Settles O20: FILL's enabling condition and its complement. -/
theorem idleFillerStep : Obligations.IdleFillerStep := by
  intro s ht
  refine ⟨fun hc hq => ?_, fun h => ?_⟩ <;> rw [step_fill ht]
  · rw [fillStep_enabled (by simpa using hc) (by simpa using hq), consumeTurn_txq]
  · rw [fillStep_idle (by simpa using h)]

/-- Settles O49: the two orders list a byte's bits, and a shift-out emits its byte. -/
theorem busBitOrder : Obligations.BusBitOrder := by
  refine ⟨fun b => ⟨rfl, rfl⟩, fun s t b rest ht hq h => ?_⟩
  have hstep := step_ser_cons ht hq
  rw [h] at hstep
  cases hstep
  exact busBits_emit_wireByte (consumeTurn_cfg s) rfl

end Sys2Proof
end

section
/-! The state after reset (10_state.md R32, 70_reset_and_hazards.md R200). -/

namespace Sys2Proof

open Machine

/-- Settles O30: every field of the reset state is written out. -/
theorem resetState : Obligations.ResetState :=
  ⟨rfl, fun c => ⟨fun n => by simp, rfl, rfl, rfl, rfl, rfl, rfl, Config.frame_fits c⟩⟩

/-- Settles O31: an empty queue, a uniform matrix, no strobe armed and no line presented. -/
theorem resetMeetsInvariant : Obligations.ResetMeetsInvariant :=
  ⟨⟨Nat.zero_le _, uniformMatrix_of_replicate rfl⟩, fun hpend => by simp [State.reset] at hpend, rfl, rfl, rfl, rfl⟩

end Sys2Proof
end

section
/-! Runs under a schedule that is written out (41_commands.md R110, 70_reset_and_hazards.md R210 and R213). -/

namespace Sys2Proof.Machine

/-- A run of `k` steps and one of `j` steps from where it ends. -/
theorem run_trans {k j : Nat} {s t u : State} (h1 : runSteps k s = .next t) (h2 : runSteps j t = .next u) :
    runSteps (k + j) s = .next u :=
  (run_add j h1).trans h2

theorem run_one {s t : State} (h : step s = .next t) : runSteps 1 s = .next t := run_succ 0 h

theorem uniformFrame_ne_nil (v : Switch) : uniformFrame v ≠ [] :=
  List.ne_nil_of_length_pos (by simp [uniformFrame_length])

theorem shiftedOut_append (a b : List Byte) : shiftedOut (a ++ b) = shiftedOut a ++ shiftedOut b := List.map_append

/-- As many turns of SER as the queue has bytes shift the whole queue out and raise `DONE`. -/
theorem run_serTurns_all {s : State} {n : Nat} {turns : List Turn} (hs : s.sched = serTurns n ++ turns)
    (hn : s.txq.length = n) (hne : s.txq ≠ []) :
    runSteps n s = .next { s with
      sched := turns, txq := [], trace := s.trace ++ shiftedOut s.txq, done := true } := by
  subst hn
  have hnonempty : s.txq.isEmpty = false := by simpa using hne
  have h := run_serTurns (q := []) hs (List.append_nil _).symm
  simpa [hnonempty] using h

/-! ## One frame -/

/-- The state in which a frame started on an empty queue has been shifted out and its completion is still to be taken. -/
def frameShifted (v : Switch) (rest : List Line) (turns : List Turn) (s : State) : State :=
  { s with
    sw := Vector.replicate 32 v, frame := pack (Vector.replicate 32 v), pend := true, done := true, txq := [],
    trace := s.trace ++ shiftedOut (uniformFrame v), statuses := s.statuses ++ [.ok], input := rest, sched := turns }

/-- The state in which CH has taken that completion. -/
def frameDelivered (v : Switch) (rest : List Line) (turns : List Turn) (s : State) : State :=
  { frameShifted v rest turns s with
    pend := false, done := false, trace := s.trace ++ shiftedOut (uniformFrame v) ++ [.strobe] }

section

variable {s : State} {line : Line} {rest : List Line} {v : Switch} {turns : List Turn}

theorem run_frameShifted (hs : s.sched = .agent .cu :: serTurns 20 ++ turns) (hi : s.input = line :: rest)
    (hv : frameCommandValue (decode line) = some v) (hc : s.clkEn = false) (hq : s.txq = []) :
    runSteps 21 s = .next (frameShifted v rest turns s) := by
  have hroom : s.txq.length + 20 ≤ s.cfg.txqCap := by simpa [hq] using Config.frame_fits s.cfg
  have h := run_trans (run_one (step_frame_of_sched hs hi hv hc hroom)) (run_serTurns_all (n := 20) (turns := turns) rfl
    (by simp [hq, uniformFrame_length]) (by simp [uniformFrame_ne_nil]))
  simp only [frameStarted_txq, hq, List.nil_append] at h
  exact h

theorem run_frameDelivered (hs : s.sched = .agent .cu :: serTurns 20 ++ .agent .ch :: turns)
    (hi : s.input = line :: rest) (hv : frameCommandValue (decode line) = some v) (hc : s.clkEn = false)
    (hq : s.txq = []) : runSteps 22 s = .next (frameDelivered v rest turns s) := by
  have h := run_trans (run_frameShifted hs hi hv hc hq) (run_one (step_ch_armed_of_sched rfl rfl rfl))
  exact h

end

/-! ## Two frames -/

section

variable {s : State} {first second : Line} {v w : Switch} (hi : s.input = [first, second])
  (hv : frameCommandValue (decode first) = some v) (hw : frameCommandValue (decode second) = some w)
  (hc : s.clkEn = false) (hq : s.txq = [])

include hi hv hw hc hq

/-- CH's turn between the frames: each has its own strobe. -/
theorem run_strobe_each
    (hs : s.sched = .agent .cu :: serTurns 20 ++ .agent .ch :: .agent .cu :: serTurns 20 ++ [.agent .ch]) :
    ∃ t, runSteps 44 s = .next t ∧
      t.trace = s.trace ++ shiftedOut (uniformFrame v) ++ [.strobe] ++ shiftedOut (uniformFrame w) ++ [.strobe] ∧
      t.pend = false ∧ t.done = false ∧ t.txq = [] := by
  have hs : s.sched = .agent .cu :: serTurns 20 ++ .agent .ch :: (.agent .cu :: serTurns 20 ++ [.agent .ch]) := by
    simpa using hs
  have h1 := run_frameDelivered hs hi hv hc hq
  have h2 := run_frameDelivered (s := frameDelivered v [second] (.agent .cu :: serTurns 20 ++ [.agent .ch]) s)
    rfl rfl hw hc rfl
  exact ⟨_, run_trans h1 h2, rfl, rfl, rfl, rfl⟩

/-- CU's second turn before any byte leaves: the frames share one completion and one strobe. -/
theorem run_strobe_once (hroom : 20 ≤ s.cfg.txqSpare)
    (hs : s.sched = .agent .cu :: .agent .cu :: serTurns 40 ++ [.agent .ch]) :
    ∃ t, runSteps 43 s = .next t ∧
      t.trace = s.trace ++ shiftedOut (uniformFrame v) ++ shiftedOut (uniformFrame w) ++ [.strobe] ∧
      t.pend = false ∧ t.done = false ∧ t.txq = [] := by
  have hcap : 40 ≤ s.cfg.txqCap := Nat.add_le_add_right hroom 20
  have h1 := run_one (step_frame_of_sched hs hi hv hc (by simp [hq]; omega))
  have h2 := run_trans h1 (run_one (step_frame_of_sched rfl rfl hw hc (by simp [hq, uniformFrame_length]; omega)))
  have h3 := run_trans h2 (run_serTurns_all (n := 40) (turns := [.agent .ch]) rfl
    (by simp [hq, uniformFrame_length]) (by simp [uniformFrame_ne_nil]))
  have h4 := run_trans h3 (run_one (step_ch_armed_of_sched rfl rfl rfl))
  exact ⟨_, h4, by simp [hq, shiftedOut_append], rfl, rfl, rfl⟩

/-- The first frame's completion is taken only after the second frame has armed the strobe again: it strobes early. -/
theorem run_strobe_early
    (hs : s.sched = .agent .cu :: serTurns 20 ++ .agent .cu :: .agent .ch :: serTurns 20 ++ [.agent .ch]) :
    ∃ t, runSteps 44 s = .next t ∧
      t.trace = s.trace ++ shiftedOut (uniformFrame v) ++ [.strobe] ++ shiftedOut (uniformFrame w) ∧
      t.pend = false ∧ t.done = false ∧ t.txq = [] := by
  have hs : s.sched = .agent .cu :: serTurns 20 ++ .agent .cu :: .agent .ch :: (serTurns 20 ++ [.agent .ch]) := by
    simpa using hs
  have h1 := run_frameShifted hs hi hv hc hq
  have h2 := run_trans h1 (run_one (step_frame_of_sched rfl rfl hw hc (by simpa [frameShifted] using Config.frame_fits s.cfg)))
  have h3 := run_trans h2 (run_one (step_ch_armed_of_sched rfl rfl rfl))
  have h4 := run_trans h3 (run_serTurns_all (n := 20) (turns := [.agent .ch]) rfl
    (by simp [frameShifted, uniformFrame_length]) (by simp [uniformFrame_ne_nil]))
  have h5 := run_trans h4 (run_one (step_ch_unarmed_of_sched rfl rfl rfl))
  exact ⟨_, h5, by simp [frameShifted], rfl, rfl, rfl⟩

end

/-! ## STOP and CLOCK -/

section

variable {s : State} {line : Line} {rest : List Line} {argv : List Token} {turns : List Turn}

theorem step_stop_of_sched (hs : s.sched = .agent .cu :: turns) (hi : s.input = line :: rest)
    (hline : decode line = .stop argv) : step s = .next { s with
      sched := turns, input := rest, clkEn := false, txq := [], statuses := s.statuses ++ [.ok] } := by
  rw [step_of_line (nextTurn_cons s hs) hi, consumeTurn_cons s hs, hline]
  rfl

theorem step_clock_of_sched (hs : s.sched = .agent .cu :: turns) (hi : s.input = line :: rest)
    (hline : decode line = .clock argv) : step s = .next { s with
      sched := turns, input := rest, clkEn := true, statuses := s.statuses ++ [.ok] } := by
  rw [step_of_line (nextTurn_cons s hs) hi, consumeTurn_cons s hs, hline]
  rfl

theorem step_fill_of_sched (hs : s.sched = .agent .fill :: turns) (hc : s.clkEn = true) (hq : s.txq.length < 4) :
    step s = .next { s with sched := turns, txq := s.txq ++ [0x00] } := by
  rw [step_of_sched hs]
  exact congrArg Host.Outcome.next (fillStep_enabled (s := { s with sched := turns }) hc hq)

end

end Sys2Proof.Machine

namespace Sys2Proof

open Machine

/-- Settles O50: the frame is started, shifted out by twenty turns of SER and strobed by CH. -/
theorem frameDeliveredThenStrobed : Obligations.FrameDeliveredThenStrobed := fun _ _ _ _ _ hi hv hs hc hq =>
  run_frameDelivered hs hi hv hc hq

/-- Settles O51: one run for each place of the second CU turn among the turns of SER and CH. -/
theorem backToBackFrames : Obligations.BackToBackFrames := fun _ _ _ _ _ hi hv hw hc hq hroom =>
  ⟨run_strobe_each hi hv hw hc hq rfl, run_strobe_once hi hv hw hc hq hroom rfl, run_strobe_early hi hv hw hc hq rfl⟩

/-- Settles O52: with `DONE` clear CH does nothing after the STOP, and the idle byte that CLOCK lets in raises the completion. -/
theorem stoppedFrameStrobesAfterIdleBytes : Obligations.StoppedFrameStrobesAfterIdleBytes := by
  intro s stop clock a b hi hstop hclock hpend hdone hs
  have h1 := run_one (step_stop_of_sched hs hi hstop)
  have h2 := run_trans h1 (run_one (step_ch_idle_of_sched rfl hdone))
  have h3 := run_trans h2 (run_one (step_clock_of_sched rfl rfl hclock))
  have h4 := run_trans h3 (run_one (step_fill_of_sched rfl rfl (by simp)))
  have h5 := run_trans h4 (run_one (step_ser_of_sched rfl rfl))
  have h6 := run_trans h5 (run_one (step_ch_armed_of_sched rfl (by simp) hpend))
  exact ⟨_, h6, by simp, rfl, rfl, rfl, rfl⟩

end Sys2Proof
end

section
/-! Silent runs drain (42_serializer.md R156, R157): SER empties the queue, CH then takes the completion, and no
other turn undoes either. -/

namespace Sys2Proof.Machine

/-! ## What a silent step does to the schedule, the queue and `DONE` -/

theorem SilentStep.sched {s t : State} (h : SilentStep s t) : t.sched = s.sched.tail := by
  cases h <;> exact consumeTurn_sched s

/-- SER's turn takes the head of the queue, and no other turn touches the queue. -/
theorem SilentStep.txq {s t : State} (h : SilentStep s t) :
    t.txq = if nextTurn s = .agent .ser then s.txq.tail else s.txq := by
  cases h with
  | idle hser =>
    rw [consumeTurn_txq]
    split
    next ht => rw [hser ht, List.tail_nil]
    next => rfl
  | shifted ht b rest hq => rw [if_pos ht, hq, List.tail_cons]
  | completed ht | strobed ht => rw [if_neg (by simp [ht]), consumeTurn_txq]

/-- CH's turn leaves no completion outstanding. -/
theorem SilentStep.done_of_ch {s t : State} (h : SilentStep s t) (ht : nextTurn s = .agent .ch) : t.done = false := by
  cases h with
  | idle _ hch => exact (consumeTurn_done s).trans (hch ht)
  | shifted hser => simp [ht] at hser
  | completed | strobed => rfl

/-- An empty queue raises no completion. -/
theorem SilentStep.done_of_empty {s t : State} (h : SilentStep s t) (hq : s.txq = []) (hd : s.done = false) :
    t.done = false := by
  cases h with
  | idle => exact (consumeTurn_done s).trans hd
  | shifted _ b rest hcons => simp [hq] at hcons
  | completed | strobed => rfl

/-- Everything is shifted out and the last completion has been taken. -/
def Drained (s : State) : Prop := s.txq = [] ∧ s.done = false

theorem SilentStep.txq_nil {s t : State} (h : SilentStep s t) (hq : s.txq = []) : t.txq = [] := by
  simp [h.txq, hq]

theorem SilentStep.drained {s t : State} (h : SilentStep s t) (hs : Drained s) : Drained t :=
  ⟨h.txq_nil hs.1, h.done_of_empty hs.1 hs.2⟩

theorem SilentStep.drained_of_ch {s t : State} (h : SilentStep s t) (ht : nextTurn s = .agent .ch) (hq : s.txq = []) :
    Drained t :=
  ⟨h.txq_nil hq, h.done_of_ch ht⟩

/-- A drained state that a silent run reaches is quiescent, and the run's books are closed. -/
theorem quiescent_of_silentFrom {s t : State} (h : SilentFrom s t) (ht : Drained t) :
    Quiescent t ∧ t.pend = false ∧ wireBytes t.trace = wireBytes s.trace ++ s.txq ∧
      strobes t.trace = strobes s.trace + (if s.pend then 1 else 0) := by
  obtain ⟨⟨hi, hc⟩, hbytes, hstrobes, harmed⟩ := h
  obtain ⟨hq, hd⟩ := ht
  have hp : t.pend = false := by
    by_contra hpend
    simpa [hq, hd] using harmed (Bool.eq_true_of_not_eq_false hpend)
  exact ⟨⟨hi, hq, hd, hc⟩, hp, by simpa [hq] using hbytes, by simpa [hp] using hstrobes⟩

/-! ## Runs under a schedule -/

theorem silentFrom_step {s t : State} (h : SilentFrom s t) : ∃ u, step t = .next u ∧ SilentStep t u ∧ SilentFrom s u := by
  obtain ⟨u, hu, hstep⟩ := silent_step h.silent
  exact ⟨u, hu, hstep, h.step hstep⟩

/-- A silent run takes the turns of any schedule; each of SER's takes a byte while there is one. -/
theorem run_silent {s : State} {rest : List Turn} : ∀ {turns : List Turn} {t : State}, SilentFrom s t →
    t.sched = turns ++ rest → ∃ u, runSteps turns.length t = .next u ∧ SilentFrom s u ∧ u.sched = rest ∧
      u.txq.length = t.txq.length - turns.count (.agent .ser) ∧ (Drained t → Drained u) := by
  intro turns
  induction turns with
  | nil => exact fun {t} h hsched => ⟨t, rfl, h, hsched, rfl, id⟩
  | cons a turns ih =>
    intro t h hsched
    obtain ⟨m, hm, hstep, hsm⟩ := silentFrom_step h
    obtain ⟨u, hu, hsu, husched, hlen, hdrained⟩ := ih hsm (by rw [hstep.sched, hsched]; rfl)
    refine ⟨u, (run_succ _ hm).trans hu, hsu, husched, ?_, fun ht => hdrained (hstep.drained ht)⟩
    rw [hlen, hstep.txq, nextTurn_cons t hsched, List.count_cons]
    split
    next ha => simp [ha, Nat.sub_sub, Nat.add_comm]
    next ha => simp [ha]

/-! ## Fair runs -/

section

variable {r : Nat → State} (hr : IsRun r) (h0 : SilentFrom (r 0) (r 0))

include hr h0

theorem isRun_silent : ∀ k, SilentFrom (r 0) (r k) ∧ SilentStep (r k) (r (k + 1)) := by
  have hnext : ∀ k, SilentFrom (r 0) (r k) → SilentStep (r k) (r (k + 1)) := fun k h => by
    obtain ⟨u, hu, hstep, -⟩ := silentFrom_step h
    rw [hr k] at hu
    cases hu
    exact hstep
  intro k
  induction k with
  | zero => exact ⟨h0, hnext 0 h0⟩
  | succ k ih => exact ⟨ih.1.step ih.2, hnext _ (ih.1.step ih.2)⟩

theorem isRun_queue_antitone {j k : Nat} (hjk : j ≤ k) : (r k).txq.length ≤ (r j).txq.length := by
  induction k, hjk using Nat.le_induction with
  | base => exact le_rfl
  | succ k _ ih =>
    refine le_trans ?_ ih
    rw [(isRun_silent hr h0 k).2.txq]
    split <;> simp

/-- A fair SER empties the queue: while there are bytes it is enabled, and each of its turns takes one. -/
theorem fair_queue_empties (hser : WeaklyFair .ser r) : ∃ k, (r k).txq = [] := by
  by_contra hnever
  push Not at hnever
  have hshrinks : ∀ n, ∃ k, (r k).txq.length + n ≤ (r 0).txq.length := by
    intro n
    induction n with
    | zero => exact ⟨0, le_rfl⟩
    | succ n ih =>
      obtain ⟨k, hk⟩ := ih
      obtain ⟨j, hkj, hturn⟩ := hser k fun j _ => by simpa [enabled] using hnever j
      have hj := isRun_queue_antitone hr h0 hkj
      have hpos := List.length_pos_iff.2 (hnever j)
      have htail : (r (j + 1)).txq.length = (r j).txq.length - 1 := by
        rw [(isRun_silent hr h0 j).2.txq, if_pos hturn, List.length_tail]
      exact ⟨j + 1, by omega⟩
  obtain ⟨k, hk⟩ := hshrinks ((r 0).txq.length + 1)
  omega

/-- Behind an empty queue a fair CH takes the completion that is outstanding. -/
theorem fair_drains (hser : WeaklyFair .ser r) (hch : WeaklyFair .ch r) : ∃ k, Drained (r k) := by
  obtain ⟨k, hk⟩ := fair_queue_empties hr h0 hser
  have hempty : ∀ j, k ≤ j → (r j).txq = [] := fun j hkj => by
    simpa [hk] using isRun_queue_antitone hr h0 hkj
  by_contra hnever
  have hdone : ∀ j, k ≤ j → (r j).done = true := fun j hkj =>
    Bool.eq_true_of_not_eq_false fun hd => hnever ⟨j, hempty j hkj, hd⟩
  obtain ⟨j, hkj, hturn⟩ := hch k hdone
  exact hnever ⟨j + 1, (isRun_silent hr h0 j).2.drained_of_ch hturn (hempty j hkj)⟩

end

end Sys2Proof.Machine

namespace Sys2Proof

open Machine

/-- Settles O53: SER's turns before CH's empty the queue, CH then drains the state, and the turns after keep it drained. -/
theorem drainsUnderEveryInterleaving : Obligations.DrainsUnderEveryInterleaving := by
  intro s before after hi hc hs hcount harmed
  obtain ⟨t, ht, hst, htsched, hlen, -⟩ := run_silent (SilentFrom.refl ⟨hi, hc⟩ harmed) hs
  have hq : t.txq = [] := List.length_eq_zero_iff.1 (by omega)
  obtain ⟨m, hm, hstep, hsm⟩ := silentFrom_step hst
  have hdrained := hstep.drained_of_ch (nextTurn_cons t htsched) hq
  obtain ⟨u, hu, hsu, husched, -, hkeep⟩ := run_silent (rest := []) (turns := after) hsm (by simp [hstep.sched, htsched])
  obtain ⟨hquiet, hpend, hbytes, hstrobes⟩ := quiescent_of_silentFrom hsu (hkeep hdrained)
  refine ⟨u, ?_, hquiet, hpend, husched, hbytes, hstrobes⟩
  rw [hs, List.length_append, List.length_cons]
  exact run_trans ht ((run_succ _ hm).trans hu)

/-- Settles O54: fairness drains the queue and then takes the completion. -/
theorem fairRunReachesQuiescence : Obligations.FairRunReachesQuiescence := by
  intro r hr hser hch hi hc harmed
  have h0 := SilentFrom.refl ⟨hi, hc⟩ harmed
  obtain ⟨k, hk⟩ := fair_drains hr h0 hser hch
  exact ⟨k, quiescent_of_silentFrom (isRun_silent hr h0 k).1 hk⟩

end Sys2Proof
end
